-- ==== Sys2Proof/Word.lean ====
section
/-! DEFINITION. The word the block decodes, and the byte its producer assembles words from. -/

namespace Sys2Proof

/-- The 32-bit instruction word and every immediate (spec R6, R7 `XLEN_WORD`, R11): a bit vector, bit 0 the
least significant (R8). -/
abbrev Word := BitVec 32

/-- One byte of the producer's memory image (spec R33); the block itself never sees a byte (R32). -/
abbrev Byte := BitVec 8

end Sys2Proof
end

