-- ==== Sys2Proof/Syntax.lean ====
section
/-! DEFINITION. The names the spec uses (formats, opcode classes, fields) and the decoded instruction of each row
of the opcode table. -/

namespace Sys2Proof

/-- A 5-bit register index, 0 to 31 (spec R6, R15). Index 0 gets no special treatment (R15, D22). -/
abbrev RegIdx := BitVec 5

/-- The six mutually exclusive encoding formats (spec R14, R20). -/
inductive Format where
  | R | I | S | B | U | J
deriving DecidableEq, Repr, Inhabited

/-- The thirteen opcode classes (spec R13, R58); the closed enumeration of legal opcodes (R20, D11). -/
inductive OpcodeClass where
  /-- "register-register ALU op" -/
  | op
  /-- "a vendor/custom-reserved op used here for non-standard extension instructions" -/
  | custom
  /-- "atomic-memory-operation op" -/
  | amo
  /-- "load" -/
  | load
  /-- "register-immediate ALU op" -/
  | opImm
  /-- "indirect-jump-and-link op" -/
  | jalr
  /-- "system/trap op" -/
  | system
  /-- "memory-fence op" -/
  | miscMem
  /-- "store" -/
  | store
  /-- "conditional branch" -/
  | branch
  /-- "load-upper-immediate op" -/
  | lui
  /-- "add-upper-immediate-to-pc op" -/
  | auipc
  /-- "jump-and-link op" -/
  | jal
deriving DecidableEq, Repr

/-- Every opcode class once, in the order of the table of spec R58. -/
def OpcodeClass.all : List OpcodeClass :=
  [.op, .custom, .amo, .load, .opImm, .jalr, .system, .miscMem, .store, .branch, .lui, .auipc, .jal]

/-- A field of the decoded record that a consumer can name: the getter `get_<field>()` of spec R86, R88 and R90. -/
inductive Field where
  | format | opcode | fullOpcode | funct3 | funct7 | funct5 | rd | rs1 | rs2 | imm
deriving DecidableEq, Repr

/-- A decoded instruction: one constructor per row of the opcode table, with the fields the row's format lays out
(spec R61). An immediate stands here as the 32-bit value it denotes (R50 to R54), so not every term is an
instruction: `Instr.WellFormed` says which are. AMO's `funct7` is split as R61 and R75 split it. -/
inductive Instr where
  | op (funct7 : BitVec 7) (rs2 rs1 : RegIdx) (funct3 : BitVec 3) (rd : RegIdx)
  | custom (funct7 : BitVec 7) (rs2 rs1 : RegIdx) (funct3 : BitVec 3) (rd : RegIdx)
  | amo (funct5 : BitVec 5) (bits26to25 : BitVec 2) (rs2 rs1 : RegIdx) (funct3 : BitVec 3) (rd : RegIdx)
  | load (immI : Word) (rs1 : RegIdx) (funct3 : BitVec 3) (rd : RegIdx)
  | opImm (immI : Word) (rs1 : RegIdx) (funct3 : BitVec 3) (rd : RegIdx)
  | jalr (immI : Word) (rs1 : RegIdx) (funct3 : BitVec 3) (rd : RegIdx)
  | system (immI : Word) (rs1 : RegIdx) (funct3 : BitVec 3) (rd : RegIdx)
  | miscMem (immI : Word) (rs1 : RegIdx) (funct3 : BitVec 3) (rd : RegIdx)
  | store (immS : Word) (rs2 rs1 : RegIdx) (funct3 : BitVec 3)
  | branch (immB : Word) (rs2 rs1 : RegIdx) (funct3 : BitVec 3)
  | lui (immU : Word) (rd : RegIdx)
  | auipc (immU : Word) (rd : RegIdx)
  | jal (immJ : Word) (rd : RegIdx)
deriving DecidableEq, Repr

/-- The row of the opcode table an instruction belongs to. -/
def Instr.opcodeClass : Instr → OpcodeClass
  | .op .. => .op
  | .custom .. => .custom
  | .amo .. => .amo
  | .load .. => .load
  | .opImm .. => .opImm
  | .jalr .. => .jalr
  | .system .. => .system
  | .miscMem .. => .miscMem
  | .store .. => .store
  | .branch .. => .branch
  | .lui .. => .lui
  | .auipc .. => .auipc
  | .jal .. => .jal

end Sys2Proof
end

