-- ==== Sys2Proof/Config.lean ====
section
/-! DEFINITION. What is fixed when the block is built (spec R7, R113), and the values the spec leaves unspecified:
free values, constants without a body, of which nothing can be proved. -/

namespace Sys2Proof

/-- The legal choices of the parameter `CUSTOM_R_OPCODE` (spec R7, D3): the four RISC-V custom slots. -/
inductive CustomSlot where
  | custom0 | custom1 | custom2 | custom3
deriving DecidableEq, Repr

/-- The parameters of the block that are bound when it is built (spec R7, R113). `XLEN_WORD` is the width of `Word`
and `FORMAT_CODE` is `Format.code`; only the custom opcode is open (D3). -/
structure Config where
  customSlot : CustomSlot
deriving DecidableEq, Repr

/-- The spec's default, `CUSTOM_R_OPCODE` = 0b00010 (spec R7, D3).
DESIGN CHOICE (notes/assumptions/5): the parameter is open; reset and `decodeTableWord` use the default. -/
def Config.default : Config := { customSlot := .custom0 }

/-- The output ports that can carry an unspecified value (spec R24, R27, R28), but for `format`, whose unspecified
value is `Config.unspecifiedFormat`. -/
inductive OutPort where
  | opcode | fullOpcode | funct3 | funct7 | funct5 | funct5Valid | rd | rs1 | rs2 | imm | immValid
deriving DecidableEq, Repr

/-- FREE VALUE. What an output port carries where spec R27 or R28 calls it unspecified: a combinational function of
the input word (R24, R31) about which nothing is known.
DEDUCED (notes/assumptions/8). Safe: nothing can be proved of the value. -/
opaque Config.unspecifiedBits (c : Config) (insn : Word) (port : OutPort) (width : Nat) : BitVec width

/-- FREE VALUE. The format whose code the `format` port carries while `illegal` = 1 (spec R27).
DEDUCED (notes/assumptions/9): it is one of the six formats, since codes 0b110 and 0b111 "are never driven" (R26).
Unsafe if a circuit drives them beside `illegal` = 1. -/
opaque Config.unspecifiedFormat (c : Config) (insn : Word) : Format

end Sys2Proof
end

