-- ==== Sys2Proof/WellFormed.lean ====
section
/-! DEFINITION. Which terms of `Instr` are instructions: those whose immediate is a value its format can encode. -/

namespace Sys2Proof

/-- The signed value of `imm` lies in `lo..hi` (spec R11: two's complement). -/
def immInRange (lo hi : Int) (imm : Word) : Bool :=
  decide (lo ≤ imm.toInt) && decide (imm.toInt ≤ hi)

/-- The values of an I or S immediate: -2048 to +2047 (spec R50, R51). -/
def immISWellFormed (imm : Word) : Bool := immInRange (-2048) 2047 imm

/-- The values of a B immediate: -4096 to +4094 in steps of 2 (spec R52). -/
def immBWellFormed (imm : Word) : Bool := immInRange (-4096) 4094 imm && imm.extractLsb' 0 1 == 0#1

/-- The values of a U immediate: the low 12 bits are 0 (spec R53). -/
def immUWellFormed (imm : Word) : Bool := imm.extractLsb' 0 12 == 0#12

/-- The values of a J immediate: -1048576 to +1048574 in steps of 2 (spec R54). -/
def immJWellFormed (imm : Word) : Bool := immInRange (-1048576) 1048574 imm && imm.extractLsb' 0 1 == 0#1

/-- The check of one instruction. An R-format row has nothing to check: every value of its fields is legal
(spec R57). -/
def Instr.wf : Instr → Bool
  | .op .. => true
  | .custom .. => true
  | .amo .. => true
  | .load imm .. => immISWellFormed imm
  | .opImm imm .. => immISWellFormed imm
  | .jalr imm .. => immISWellFormed imm
  | .system imm .. => immISWellFormed imm
  | .miscMem imm .. => immISWellFormed imm
  | .store imm .. => immISWellFormed imm
  | .branch imm .. => immBWellFormed imm
  | .lui imm .. => immUWellFormed imm
  | .auipc imm .. => immUWellFormed imm
  | .jal imm .. => immJWellFormed imm

/-- The instruction's immediate is one its format encodes. -/
abbrev Instr.WellFormed (i : Instr) : Prop := i.wf = true

end Sys2Proof
end

