-- ==== Sys2Proof/Decode.lean ====
section
/-! DEFINITION. Fields and immediates of a word, validation, the decoder from words and from bytes, and the encoder. -/

namespace Sys2Proof

/-! ### Fields (spec R42 to R49): unsigned slices, extracted for every word whatever its format -/

/-- `full_opcode = insn[6:0]` (spec R42). -/
def fullOpcodeOf (w : Word) : BitVec 7 := w.extractLsb' 0 7

/-- `opcode = insn[6:2]` (spec R43). -/
def opcodeOf (w : Word) : BitVec 5 := w.extractLsb' 2 5

/-- `insn[1:0]`, the width marker (spec R41). -/
def widthMarkerOf (w : Word) : BitVec 2 := w.extractLsb' 0 2

/-- `funct3 = insn[14:12]` (spec R44). -/
def funct3Of (w : Word) : BitVec 3 := w.extractLsb' 12 3

/-- `funct7 = insn[31:25]` (spec R45). -/
def funct7Of (w : Word) : BitVec 7 := w.extractLsb' 25 7

/-- `funct5 = insn[31:27]` (spec R46). -/
def funct5Of (w : Word) : BitVec 5 := w.extractLsb' 27 5

/-- `insn[26:25]`, the two bits of an AMO word's `funct7` below `funct5` (spec R61, R75). -/
def bits26to25Of (w : Word) : BitVec 2 := w.extractLsb' 25 2

/-- `rd = insn[11:7]` (spec R47). -/
def rdOf (w : Word) : RegIdx := w.extractLsb' 7 5

/-- `rs1 = insn[19:15]` (spec R48). -/
def rs1Of (w : Word) : RegIdx := w.extractLsb' 15 5

/-- `rs2 = insn[24:20]` (spec R49). -/
def rs2Of (w : Word) : RegIdx := w.extractLsb' 20 5

/-! ### Immediates (spec R50 to R54) -/

/-- `sext_N` (spec R10): the 32-bit value whose bits from N up copy bit N-1. -/
def sext {n : Nat} (v : BitVec n) : Word := v.signExtend 32

/-- `imm_I = sext_12(insn[31:20])` (spec R50). -/
def immIOf (w : Word) : Word := sext (w.extractLsb' 20 12)

/-- `imm_S = sext_12({insn[31:25], insn[11:7]})` (spec R51). -/
def immSOf (w : Word) : Word := sext (w.extractLsb' 25 7 ++ w.extractLsb' 7 5)

/-- `imm_B = sext_13({insn[31], insn[7], insn[30:25], insn[11:8], 0b0})` (spec R52). -/
def immBOf (w : Word) : Word :=
  sext (w.extractLsb' 31 1 ++ w.extractLsb' 7 1 ++ w.extractLsb' 25 6 ++ w.extractLsb' 8 4 ++ 0#1)

/-- `imm_U = {insn[31:12], 0b000000000000}`, no extension step (spec R53, C5). -/
def immUOf (w : Word) : Word := w.extractLsb' 12 20 ++ 0#12

/-- `imm_J = sext_21({insn[31], insn[19:12], insn[20], insn[30:21], 0b0})` (spec R54). -/
def immJOf (w : Word) : Word :=
  sext (w.extractLsb' 31 1 ++ w.extractLsb' 12 8 ++ w.extractLsb' 20 1 ++ w.extractLsb' 21 10 ++ 0#1)

/-! ### The opcode map (spec R58, R59) -/

/-- The 5-bit value of `CUSTOM_R_OPCODE` (spec R7). -/
def CustomSlot.opcode : CustomSlot → BitVec 5
  | .custom0 => 0b00010#5
  | .custom1 => 0b01010#5
  | .custom2 => 0b10110#5
  | .custom3 => 0b11110#5

/-- The opcode of each class (spec R58). UNVERIFIED (notes/assumptions/6): all values but OP_IMM's and BRANCH's are
general knowledge of the spec itself (R59, G1). -/
def OpcodeClass.opcode (slot : CustomSlot) : OpcodeClass → BitVec 5
  | .op => 0b01100#5
  | .custom => slot.opcode
  | .amo => 0b01011#5
  | .load => 0b00000#5
  | .opImm => 0b00100#5
  | .jalr => 0b11001#5
  | .system => 0b11100#5
  | .miscMem => 0b00011#5
  | .store => 0b01000#5
  | .branch => 0b11000#5
  | .lui => 0b01101#5
  | .auipc => 0b00101#5
  | .jal => 0b11011#5

/-- The format of each class (spec R58). -/
def OpcodeClass.format : OpcodeClass → Format
  | .op => .R
  | .custom => .R
  | .amo => .R
  | .load => .I
  | .opImm => .I
  | .jalr => .I
  | .system => .I
  | .miscMem => .I
  | .store => .S
  | .branch => .B
  | .lui => .U
  | .auipc => .U
  | .jal => .J

/-- The class an opcode maps to; none where it is unmapped (spec R58: "any opcode not listed is illegal"). -/
def classOf (slot : CustomSlot) (opcode : BitVec 5) : Option OpcodeClass :=
  OpcodeClass.all.find? (fun c => c.opcode slot == opcode)

/-- `format_of` (spec R58): a lookup on the opcode alone (R21, R62). -/
def formatOf (slot : CustomSlot) (opcode : BitVec 5) : Option Format :=
  (classOf slot opcode).map OpcodeClass.format

/-- `FORMAT_CODE` (spec R7, R26). The table's `format_code` column says otherwise on B and U; the rules are followed
(DEDUCED, notes/assumptions/7). -/
def Format.code : Format → BitVec 3
  | .R => 0b000#3
  | .I => 0b001#3
  | .S => 0b010#3
  | .B => 0b011#3
  | .U => 0b100#3
  | .J => 0b101#3

/-- The format a code on the `format` port names; 0b110 and 0b111 name none (spec R26; I8: "refuse if ever
observed"). -/
def Format.ofCode (code : BitVec 3) : Option Format :=
  [Format.R, .I, .S, .B, .U, .J].find? (fun f => f.code == code)

/-! ### Validation (spec R55) -/

/-- The single error of decoding: it records the rejected word and nothing else (spec R98, D15). -/
structure IllegalInstruction where
  word : Word
deriving DecidableEq, Repr

/-- The four causes the spec tells apart in prose only (spec R99). No result depends on which holds. -/
inductive IllegalCause where
  | allZero | allOnes | widthMarker | unrecognizedOpcode
deriving DecidableEq, Repr

/-- One cause's condition on a word (spec R99). -/
def IllegalCause.applies (slot : CustomSlot) (w : Word) : IllegalCause → Bool
  | .allZero => w == 0x00000000#32
  | .allOnes => w == 0xFFFFFFFF#32
  | .widthMarker => widthMarkerOf w != 0b11#2
  | .unrecognizedOpcode => (classOf slot (opcodeOf w)).isNone

/-- The causes that apply to a word (spec R99, R104: several may). -/
def illegalCauses (slot : CustomSlot) (w : Word) : List IllegalCause :=
  [IllegalCause.allZero, .allOnes, .widthMarker, .unrecognizedOpcode].filter (·.applies slot w)

/-- `OPCODES`, the thirteen legal opcode values (spec R55, R58). -/
def legalOpcodes (slot : CustomSlot) : List (BitVec 5) := OpcodeClass.all.map (·.opcode slot)

/-- `legal(insn)` (spec R55): the three checks, as written. -/
def legal (slot : CustomSlot) (w : Word) : Bool :=
  w != 0x00000000#32 && w != 0xFFFFFFFF#32 && widthMarkerOf w == 0b11#2 && (legalOpcodes slot).contains (opcodeOf w)

/-! ### The decoder -/

/-- The instruction of class `c` that a word of that class is, its fields read by the format's layout (spec R61). -/
def instrOf (c : OpcodeClass) (w : Word) : Instr :=
  match c with
  | .op => .op (funct7Of w) (rs2Of w) (rs1Of w) (funct3Of w) (rdOf w)
  | .custom => .custom (funct7Of w) (rs2Of w) (rs1Of w) (funct3Of w) (rdOf w)
  | .amo => .amo (funct5Of w) (bits26to25Of w) (rs2Of w) (rs1Of w) (funct3Of w) (rdOf w)
  | .load => .load (immIOf w) (rs1Of w) (funct3Of w) (rdOf w)
  | .opImm => .opImm (immIOf w) (rs1Of w) (funct3Of w) (rdOf w)
  | .jalr => .jalr (immIOf w) (rs1Of w) (funct3Of w) (rdOf w)
  | .system => .system (immIOf w) (rs1Of w) (funct3Of w) (rdOf w)
  | .miscMem => .miscMem (immIOf w) (rs1Of w) (funct3Of w) (rdOf w)
  | .store => .store (immSOf w) (rs2Of w) (rs1Of w) (funct3Of w)
  | .branch => .branch (immBOf w) (rs2Of w) (rs1Of w) (funct3Of w)
  | .lui => .lui (immUOf w) (rdOf w)
  | .auipc => .auipc (immUOf w) (rdOf w)
  | .jal => .jal (immJOf w) (rdOf w)

/-- The decoder, total on all words (spec R68): validation first (R55), then the class by the opcode alone (R62).
It rejects a word by the spec's one error (R98). -/
def decode (slot : CustomSlot) (w : Word) : Except IllegalInstruction Instr :=
  if w = 0x00000000#32 ∨ w = 0xFFFFFFFF#32 then .error ⟨w⟩
  else if widthMarkerOf w ≠ 0b11#2 then .error ⟨w⟩
  else match classOf slot (opcodeOf w) with
    | none => .error ⟨w⟩
    | some c => .ok (instrOf c w)

/-! ### The producer's bytes (spec R33, D18) -/

/-- Four bytes, lowest address first, make the word `{b3, b2, b1, b0}` (spec R33). -/
def wordOfBytes (b0 b1 b2 b3 : Byte) : Word := b3 ++ b2 ++ b1 ++ b0

/-- The four bytes of a word, lowest address first (spec R33). -/
def bytesOfWord (w : Word) : List Byte :=
  [w.extractLsb' 0 8, w.extractLsb' 8 8, w.extractLsb' 16 8, w.extractLsb' 24 8]

/-- The successive words of a memory image given as bytes (spec R33). Fewer than four bytes at the end are no word.
DESIGN CHOICE (notes/assumptions/13): the image's layout is not given (N6). -/
def wordsOfImage : List Byte → List Word
  | b0 :: b1 :: b2 :: b3 :: rest => wordOfBytes b0 b1 b2 b3 :: wordsOfImage rest
  | _ => []

/-- Why bytes give no instruction: the block's own error, or too few bytes to make a word. -/
inductive ByteReject where
  /-- The block rejects the word (spec R98). -/
  | illegalInstruction (e : IllegalInstruction)
  /-- The producer has no word to present (notes/assumptions/13). -/
  | truncated (bytes : List Byte)
deriving DecidableEq, Repr

/-- The decoder on any list of bytes: the first word's instruction and the bytes after it. -/
def decodeBytes (slot : CustomSlot) : List Byte → Except ByteReject (Instr × List Byte)
  | b0 :: b1 :: b2 :: b3 :: rest =>
    match decode slot (wordOfBytes b0 b1 b2 b3) with
    | .ok i => .ok (i, rest)
    | .error e => .error (.illegalInstruction e)
  | bytes => .error (.truncated bytes)

/-- The word that opcode-table bits stand for: bit 0 the least significant, the bits from `nbits` up zero. -/
def tableWord (nbits w : Nat) : Word := BitVec.ofNat 32 (w % 2 ^ nbits)

/-- What the decoder reads from a row's bits laid out in memory, with the default `CUSTOM_R_OPCODE`, the one the
table is written for (spec R7, D3). -/
def decodeTableWord (nbits w : Nat) : Option Instr :=
  match decodeBytes Config.default.customSlot (bytesOfWord (tableWord nbits w)) with
  | .ok (i, _) => some i
  | .error _ => none

/-! ### The encoder (spec R58, R61) -/

/-- `full_opcode = {opcode, 0b11}` of a legal word (spec R43). -/
def OpcodeClass.fullOpcode (slot : CustomSlot) (c : OpcodeClass) : BitVec 7 := c.opcode slot ++ 0b11#2

/-- The six bit groups that cover a word (spec R72). -/
def layout (funct7 : BitVec 7) (rs2 rs1 : RegIdx) (funct3 : BitVec 3) (rd : RegIdx) (full : BitVec 7) : Word :=
  funct7 ++ rs2 ++ rs1 ++ funct3 ++ rd ++ full

/-- Row I of spec R61. -/
def layoutI (imm : Word) (rs1 : RegIdx) (funct3 : BitVec 3) (rd : RegIdx) (full : BitVec 7) : Word :=
  layout (imm.extractLsb' 5 7) (imm.extractLsb' 0 5) rs1 funct3 rd full

/-- Row S of spec R61. -/
def layoutS (imm : Word) (rs2 rs1 : RegIdx) (funct3 : BitVec 3) (full : BitVec 7) : Word :=
  layout (imm.extractLsb' 5 7) rs2 rs1 funct3 (imm.extractLsb' 0 5) full

/-- Row B of spec R61: bit 31 is `imm_B[12]`, 30:25 `imm_B[10:5]`, 11:8 `imm_B[4:1]`, bit 7 `imm_B[11]`. -/
def layoutB (imm : Word) (rs2 rs1 : RegIdx) (funct3 : BitVec 3) (full : BitVec 7) : Word :=
  layout (imm.extractLsb' 12 1 ++ imm.extractLsb' 5 6) rs2 rs1 funct3 (imm.extractLsb' 1 4 ++ imm.extractLsb' 11 1) full

/-- Row U of spec R61. -/
def layoutU (imm : Word) (rd : RegIdx) (full : BitVec 7) : Word :=
  layout (imm.extractLsb' 25 7) (imm.extractLsb' 20 5) (imm.extractLsb' 15 5) (imm.extractLsb' 12 3) rd full

/-- Row J of spec R61: bit 31 is `imm_J[20]`, 30:21 `imm_J[10:1]`, bit 20 `imm_J[11]`, 19:12 `imm_J[19:12]`. -/
def layoutJ (imm : Word) (rd : RegIdx) (full : BitVec 7) : Word :=
  layout (imm.extractLsb' 20 1 ++ imm.extractLsb' 5 6) (imm.extractLsb' 1 4 ++ imm.extractLsb' 11 1)
    (imm.extractLsb' 15 5) (imm.extractLsb' 12 3) rd full

/-- The encoder: the word of a well-formed instruction (spec R58, R61). -/
def encode (slot : CustomSlot) : Instr → Word
  | .op funct7 rs2 rs1 funct3 rd => layout funct7 rs2 rs1 funct3 rd (OpcodeClass.op.fullOpcode slot)
  | .custom funct7 rs2 rs1 funct3 rd => layout funct7 rs2 rs1 funct3 rd (OpcodeClass.custom.fullOpcode slot)
  | .amo funct5 low rs2 rs1 funct3 rd => layout (funct5 ++ low) rs2 rs1 funct3 rd (OpcodeClass.amo.fullOpcode slot)
  | .load imm rs1 funct3 rd => layoutI imm rs1 funct3 rd (OpcodeClass.load.fullOpcode slot)
  | .opImm imm rs1 funct3 rd => layoutI imm rs1 funct3 rd (OpcodeClass.opImm.fullOpcode slot)
  | .jalr imm rs1 funct3 rd => layoutI imm rs1 funct3 rd (OpcodeClass.jalr.fullOpcode slot)
  | .system imm rs1 funct3 rd => layoutI imm rs1 funct3 rd (OpcodeClass.system.fullOpcode slot)
  | .miscMem imm rs1 funct3 rd => layoutI imm rs1 funct3 rd (OpcodeClass.miscMem.fullOpcode slot)
  | .store imm rs2 rs1 funct3 => layoutS imm rs2 rs1 funct3 (OpcodeClass.store.fullOpcode slot)
  | .branch imm rs2 rs1 funct3 => layoutB imm rs2 rs1 funct3 (OpcodeClass.branch.fullOpcode slot)
  | .lui imm rd => layoutU imm rd (OpcodeClass.lui.fullOpcode slot)
  | .auipc imm rd => layoutU imm rd (OpcodeClass.auipc.fullOpcode slot)
  | .jal imm rd => layoutJ imm rd (OpcodeClass.jal.fullOpcode slot)

end Sys2Proof
end

