-- ==== Sys2Proof/Machine/State.lean ====
section
/-! DEFINITION. What the machine holds: the build-time parameter, the word on the input, the block's answer to it, and
the environment's actions still to come. The block has no storage of its own (spec R15 to R19). -/

namespace Sys2Proof.Machine

/-- The decoded-instruction record, fully populated (spec R20): every field and all five immediates, whether the
format gives them meaning or not (R30, C4). -/
structure Decoded where
  format     : Format
  opcode     : BitVec 5
  fullOpcode : BitVec 7
  funct3     : BitVec 3
  funct7     : BitVec 7
  funct5     : BitVec 5
  rd         : RegIdx
  rs1        : RegIdx
  rs2        : RegIdx
  immI       : Word
  immS       : Word
  immB       : Word
  immU       : Word
  immJ       : Word
deriving DecidableEq, Repr

/-- What a getter returns: a format, or a bit vector of the field's width (spec R6). -/
inductive FieldValue where
  | format (f : Format)
  | bits3 (v : BitVec 3)
  | bits5 (v : BitVec 5)
  | bits7 (v : BitVec 7)
  | word (v : Word)
deriving DecidableEq, Repr

/-- Why the machine stops with a fault. -/
inductive Fault where
  /-- `ContractFault(getter, format, opcode)` (spec R87): a consumer reads `imm` of a format R record (R88) or `funct5`
  of a record whose opcode is not AMO (R90). Raised by `Decoded.read`, through a `read` stimulus only; no instruction's
  meaning raises it. Safe: the spec requires the read to fail fast and never to give a value. -/
  | contractFault (getter : Field) (format : Format) (opcode : BitVec 5)
deriving DecidableEq, Repr

/-- Why the machine has no answer. -/
inductive Refusal where
  /-- An instruction without a meaning yet; raised by an arm of `exec` alone. Safe. No arm raises it. -/
  | notModelled (mnemonic : String)
  /-- A getter applied while the answer is IllegalInstruction: "no record exists" and "no getter can be applied to it"
  (spec R95; I5 says refuse). Raised by `readField`, through a `read` stimulus only. Safe: nothing is read.
  DESIGN CHOICE (notes/assumptions/11). -/
  | noRecord (getter : Field)
deriving DecidableEq, Repr

/-- One action of the environment on the block (notes/assumptions/2). -/
inductive Stimulus where
  /-- The producer drives a word on the input port `insn` (spec R23, R33). -/
  | present (w : Word)
  /-- A consumer calls the getter of a field on the record (spec R86, R88, R90). -/
  | read (f : Field)
deriving DecidableEq, Repr

/-- A field a consumer has read, with the value it got. -/
structure Sample where
  field : Field
  value : FieldValue
deriving DecidableEq, Repr

/-- The output ports of spec R24, each with its width; a view, never stored (`State.ports`). -/
structure Ports where
  illegal     : BitVec 1
  format      : BitVec 3
  opcode      : BitVec 5
  fullOpcode  : BitVec 7
  funct3      : BitVec 3
  funct7      : BitVec 7
  funct5      : BitVec 5
  funct5Valid : BitVec 1
  rd          : BitVec 5
  rs1         : BitVec 5
  rs2         : BitVec 5
  imm         : BitVec 32
  immValid    : BitVec 1
deriving DecidableEq, Repr

/-- The machine's state. `config` is fixed when the block is built (spec R113); `insn` is the input port (R23) and
`result` the block's answer for it (R20, R27, R67); `stimuli` and `sampled` are the model's own and belong to the
environment.
DESIGN CHOICE (notes/assumptions/1): the block stores nothing (R19); `result` is the value on its outputs. -/
structure State where
  config  : Config
  insn    : Word
  result  : Except IllegalInstruction Decoded
  stimuli : List Stimulus
  sampled : Option Sample
deriving DecidableEq, Repr

/-- The machine before anything is presented. The block has no reset (spec R112), so every value here is the model's:
DESIGN CHOICE (notes/assumptions/3, /5). `result` is what the block answers for the word on its input, as R112 says it
is at every time. -/
def State.reset : State where
  config := Config.default
  insn := 0x00000000#32
  result := .error ⟨0x00000000#32⟩
  stimuli := []
  sampled := none

end Sys2Proof.Machine
end

