-- ==== Sys2Proof/Machine/Operands.lean ====
section
/-! DEFINITION. The record: how it is built from a word (spec R67) and from an instruction's operands (R61, R73 to
R85), and how it is read (R86 to R97). -/

namespace Sys2Proof.Machine

/-! ### The decode function on words -/

/-- The record of a word: every field and every immediate, eagerly (spec R67, construction). -/
def Decoded.ofWord (format : Format) (w : Word) : Decoded where
  format := format
  opcode := opcodeOf w
  fullOpcode := fullOpcodeOf w
  funct3 := funct3Of w
  funct7 := funct7Of w
  funct5 := funct5Of w
  rd := rdOf w
  rs1 := rs1Of w
  rs2 := rs2Of w
  immI := immIOf w
  immS := immSOf w
  immB := immBOf w
  immU := immUOf w
  immJ := immJOf w

/-- `decode` of spec R67, line by line: the block as one function of the word. The machine runs instead by class, each
with its own meaning; that the two agree is a statement about `step`. -/
def decodeRecord (slot : CustomSlot) (w : Word) : Except IllegalInstruction Decoded :=
  if w = 0x00000000#32 ∨ w = 0xFFFFFFFF#32 then .error ⟨w⟩
  else if widthMarkerOf w ≠ 0b11#2 then .error ⟨w⟩
  else match formatOf slot (opcodeOf w) with
    | none => .error ⟨w⟩
    | some f => .ok (Decoded.ofWord f w)

/-! ### The record of an instruction, from its operands -/

/-- The record whose word has the six bit groups given (spec R72): the immediates are assembled from the groups
exactly as R50 to R54 assemble them from the word, and `funct5` is `funct7[6:2]` (R46). -/
def Decoded.ofFields (format : Format) (opcode : BitVec 5) (funct7 : BitVec 7) (rs2 rs1 : RegIdx)
    (funct3 : BitVec 3) (rd : RegIdx) : Decoded where
  format := format
  opcode := opcode
  fullOpcode := opcode ++ 0b11#2
  funct3 := funct3
  funct7 := funct7
  funct5 := funct7.extractLsb' 2 5
  rd := rd
  rs1 := rs1
  rs2 := rs2
  immI := sext (funct7 ++ rs2)
  immS := sext (funct7 ++ rd)
  immB := sext (funct7.extractLsb' 6 1 ++ rd.extractLsb' 0 1 ++ funct7.extractLsb' 0 6 ++ rd.extractLsb' 1 4 ++ 0#1)
  immU := funct7 ++ rs2 ++ rs1 ++ funct3 ++ 0#12
  immJ := sext (funct7.extractLsb' 6 1 ++ (rs1 ++ funct3) ++ rs2.extractLsb' 0 1
    ++ (funct7.extractLsb' 0 6 ++ rs2.extractLsb' 1 4) ++ 0#1)

/-- The record of an R-format instruction (spec R61 row R). -/
def recordR (opcode : BitVec 5) (funct7 : BitVec 7) (rs2 rs1 : RegIdx) (funct3 : BitVec 3) (rd : RegIdx) : Decoded :=
  Decoded.ofFields .R opcode funct7 rs2 rs1 funct3 rd

/-- The record of an I-format instruction: raw `funct7` and `rs2` are `imm_I[11:5]` and `imm_I[4:0]` (spec R61 row I). -/
def recordI (opcode : BitVec 5) (imm : Word) (rs1 : RegIdx) (funct3 : BitVec 3) (rd : RegIdx) : Decoded :=
  Decoded.ofFields .I opcode (imm.extractLsb' 5 7) (imm.extractLsb' 0 5) rs1 funct3 rd

/-- The record of an S-format instruction: raw `funct7` and `rd` are `imm_S[11:5]` and `imm_S[4:0]` (spec R61 row S). -/
def recordS (opcode : BitVec 5) (imm : Word) (rs2 rs1 : RegIdx) (funct3 : BitVec 3) : Decoded :=
  Decoded.ofFields .S opcode (imm.extractLsb' 5 7) rs2 rs1 funct3 (imm.extractLsb' 0 5)

/-- The record of a B-format instruction: raw `funct7` is `{imm_B[12], imm_B[10:5]}` and raw `rd`
`{imm_B[4:1], imm_B[11]}` (spec R61 row B). -/
def recordB (opcode : BitVec 5) (imm : Word) (rs2 rs1 : RegIdx) (funct3 : BitVec 3) : Decoded :=
  Decoded.ofFields .B opcode (imm.extractLsb' 12 1 ++ imm.extractLsb' 5 6) rs2 rs1 funct3
    (imm.extractLsb' 1 4 ++ imm.extractLsb' 11 1)

/-- The record of a U-format instruction: the raw fields above `rd` are bits 31:12 of `imm_U` (spec R61 row U). -/
def recordU (opcode : BitVec 5) (imm : Word) (rd : RegIdx) : Decoded :=
  Decoded.ofFields .U opcode (imm.extractLsb' 25 7) (imm.extractLsb' 20 5) (imm.extractLsb' 15 5)
    (imm.extractLsb' 12 3) rd

/-- The record of a J-format instruction (spec R61 row J). -/
def recordJ (opcode : BitVec 5) (imm : Word) (rd : RegIdx) : Decoded :=
  Decoded.ofFields .J opcode (imm.extractLsb' 20 1 ++ imm.extractLsb' 5 6)
    (imm.extractLsb' 1 4 ++ imm.extractLsb' 11 1) (imm.extractLsb' 15 5) (imm.extractLsb' 12 3) rd

/-! ### Reading a record -/

/-- `imm_of(format)` (spec R22, R89): the one readable immediate; a format R record has none. -/
def Decoded.immOf (d : Decoded) : Option Word :=
  match d.format with
  | .R => none
  | .I => some d.immI
  | .S => some d.immS
  | .B => some d.immB
  | .U => some d.immU
  | .J => some d.immJ

/-- The opcode whose records alone give `funct5` (spec R90). -/
def amoOpcode : BitVec 5 := 0b01011#5

/-- `get_imm()` (spec R88, R89). -/
def Decoded.getImm (d : Decoded) : Except Fault Word :=
  match d.immOf with
  | none => .error (.contractFault .imm d.format d.opcode)
  | some v => .ok v

/-- `get_funct5()` (spec R90): the contract is on the opcode, not on the format. -/
def Decoded.getFunct5 (d : Decoded) : Except Fault (BitVec 5) :=
  if d.opcode = amoOpcode then .ok d.funct5 else .error (.contractFault .funct5 d.format d.opcode)

/-- The getter of a field: the eight raw getters always answer (spec R86, R92), `get_imm` and `get_funct5` by their
contracts (R88, R90). No other check exists (R93). -/
def Decoded.read (d : Decoded) : Field → Except Fault FieldValue
  | .format => .ok (.format d.format)
  | .opcode => .ok (.bits5 d.opcode)
  | .fullOpcode => .ok (.bits7 d.fullOpcode)
  | .funct3 => .ok (.bits3 d.funct3)
  | .funct7 => .ok (.bits7 d.funct7)
  | .funct5 => d.getFunct5.map .bits5
  | .rd => .ok (.bits5 d.rd)
  | .rs1 => .ok (.bits5 d.rs1)
  | .rs2 => .ok (.bits5 d.rs2)
  | .imm => d.getImm.map .word

/-- Which fields carry meaning in a record (spec R91, and R90 for `funct5`). A raw getter of a field that does not
still answers. -/
def Decoded.meaningful (d : Decoded) : Field → Bool
  | .format => true
  | .opcode => true
  | .fullOpcode => true
  | .funct3 => d.format == .R || d.format == .I || d.format == .S || d.format == .B
  | .funct7 => d.format == .R
  | .funct5 => d.opcode == amoOpcode
  | .rd => d.format == .R || d.format == .I || d.format == .U || d.format == .J
  | .rs1 => d.format == .R || d.format == .I || d.format == .S || d.format == .B
  | .rs2 => d.format == .R || d.format == .S || d.format == .B
  | .imm => d.format != .R

/-- `diag_fields(format)` (spec R96): the fields the diagnostic rendering prints, in order. -/
def diagFields : Format → List Field
  | .R => [.opcode, .fullOpcode, .funct3, .funct7, .rd, .rs1, .rs2]
  | .I => [.opcode, .fullOpcode, .funct3, .rd, .rs1, .imm]
  | .S => [.opcode, .fullOpcode, .funct3, .rs1, .rs2, .imm]
  | .B => [.opcode, .fullOpcode, .funct3, .rs1, .rs2, .imm]
  | .U => [.opcode, .fullOpcode, .rd, .imm]
  | .J => [.opcode, .fullOpcode, .rd, .imm]

/-- Reads fields one after another; the first contract fault ends it. -/
def Decoded.readAll (d : Decoded) : List Field → Except Fault (List Sample)
  | [] => .ok []
  | f :: fs =>
    match d.read f with
    | .error e => .error e
    | .ok v =>
      match d.readAll fs with
      | .error e => .error e
      | .ok rest => .ok (⟨f, v⟩ :: rest)

/-- The diagnostic rendering as a projection (spec R96, R97): the selected fields with their values; the text is not
modelled (N9, D17). -/
def Decoded.diagnostic (d : Decoded) : Except Fault (List Sample) := d.readAll (diagFields d.format)

end Sys2Proof.Machine
end

