-- ==== Sys2Proof/Machine/Flags.lean ====
section
/-! DEFINITION. The output ports as a view of the answer (spec R24): the block has no flags (R18); its one-bit strobes
`illegal`, `imm_valid` and `funct5_valid` are computed here, and the ports beside them. -/

namespace Sys2Proof.Machine

/-- A one-bit port: 1 where the condition holds. -/
def strobe (b : Bool) : BitVec 1 := if b then 1#1 else 0#1

/-- `imm_valid` of a record: 0 for format R, 1 for every other format (spec R24). -/
def immValidOf (d : Decoded) : BitVec 1 := strobe (d.format != .R)

/-- `funct5_valid` of a record: 1 iff the opcode is AMO (spec R24). -/
def funct5ValidOf (d : Decoded) : BitVec 1 := strobe (d.opcode == amoOpcode)

/-- The ports beside `illegal` = 0 (spec R24). `funct5` carries `insn[31:27]` whether it is valid or not (R29); `imm`
is unspecified where it is not valid (R28: a free value). -/
def Ports.ofRecord (c : Config) (insn : Word) (d : Decoded) : Ports where
  illegal := 0#1
  format := d.format.code
  opcode := d.opcode
  fullOpcode := d.fullOpcode
  funct3 := d.funct3
  funct7 := d.funct7
  funct5 := d.funct5
  funct5Valid := funct5ValidOf d
  rd := d.rd
  rs1 := d.rs1
  rs2 := d.rs2
  imm := d.immOf.getD (Config.unspecifiedBits c insn .imm 32)
  immValid := immValidOf d

/-- The ports beside `illegal` = 1: every other one is unspecified (spec R25, R27: free values). -/
def Ports.ofIllegal (c : Config) (insn : Word) : Ports where
  illegal := 1#1
  format := (Config.unspecifiedFormat c insn).code
  opcode := Config.unspecifiedBits c insn .opcode 5
  fullOpcode := Config.unspecifiedBits c insn .fullOpcode 7
  funct3 := Config.unspecifiedBits c insn .funct3 3
  funct7 := Config.unspecifiedBits c insn .funct7 7
  funct5 := Config.unspecifiedBits c insn .funct5 5
  funct5Valid := Config.unspecifiedBits c insn .funct5Valid 1
  rd := Config.unspecifiedBits c insn .rd 5
  rs1 := Config.unspecifiedBits c insn .rs1 5
  rs2 := Config.unspecifiedBits c insn .rs2 5
  imm := Config.unspecifiedBits c insn .imm 32
  immValid := Config.unspecifiedBits c insn .immValid 1

/-- What the block's output ports carry (spec R24). -/
def State.ports (s : State) : Ports :=
  match s.result with
  | .ok d => Ports.ofRecord s.config s.insn d
  | .error _ => Ports.ofIllegal s.config s.insn

end Sys2Proof.Machine
end

