-- ==== Sys2Proof/Machine/Ops.lean ====
section
/-! DEFINITION. The shared operations: what a step writes, answering with a record, answering with the error, and a
consumer's read. -/

namespace Sys2Proof.Machine

/-! ### The places a step writes -/

/-- The word on the input port (spec R23). -/
def State.withInsn (s : State) (w : Word) : State := { s with insn := w }

/-- The block's answer (spec R67). -/
def State.withResult (s : State) (r : Except IllegalInstruction Decoded) : State := { s with result := r }

/-- The environment's actions still to come. -/
def State.withStimuli (s : State) (l : List Stimulus) : State := { s with stimuli := l }

/-- The last field a consumer read. -/
def State.withSampled (s : State) (p : Sample) : State := { s with sampled := some p }

/-! ### The operations -/

/-- `return Ok(d)` (spec R12, R67): the block answers with the record, and nothing else changes (R67: "Writes:
nothing (the result is returned)"). -/
def answerOk (d : Decoded) (s : State) : Host.Outcome State Fault Refusal := .next (s.withResult (.ok d))

/-- `raise IllegalInstruction(w)` (spec R12, R98, R106), the block's one exception: the error is the whole answer, no
state is saved, no control is transferred, and the next word is decoded as ever. The block has no return from an
exception (R107), so none stands beside it. -/
def raiseIllegalInstruction (w : Word) (s : State) : Host.Outcome State Fault Refusal :=
  .next (s.withResult (.error ⟨w⟩))

/-- A consumer's getter call (spec R86 to R92): the value it gets, the contract fault (R87), or, where no record
exists, no answer at all (R95). -/
def readField (f : Field) (s : State) : Host.Outcome State Fault Refusal :=
  match s.result with
  | .error _ => .refused (.noRecord f)
  | .ok d =>
    match d.read f with
    | .ok v => .next (s.withSampled ⟨f, v⟩)
    | .error e => .fault e

/-- The producer queues words to be presented one at a time, in order, after what is queued (spec R33, P1 to P4). -/
def State.feed (s : State) (ws : List Word) : State := s.withStimuli (s.stimuli ++ ws.map .present)

end Sys2Proof.Machine
end

