-- ==== Sys2Proof/Machine/BFormat.lean ====
section
/-! DEFINITION. The B-format opcode class: BRANCH (spec R82). -/

namespace Sys2Proof.Machine

/-- BRANCH (spec R82): an offset is produced, no target and no outcome (R17). -/
def execBranch (imm : Word) (rs2 rs1 : RegIdx) (funct3 : BitVec 3) (s : State) : Host.Outcome State Fault Refusal :=
  answerOk (recordB 0b11000#5 imm rs2 rs1 funct3) s

end Sys2Proof.Machine
end

