-- ==== Sys2Proof/Machine/IFormat.lean ====
section
/-! DEFINITION. The I-format opcode classes: LOAD, OP_IMM, JALR, SYSTEM, MISC_MEM (spec R76 to R80). -/

namespace Sys2Proof.Machine

/-- LOAD (spec R76): no access is made (R35). -/
def execLoad (imm : Word) (rs1 : RegIdx) (funct3 : BitVec 3) (rd : RegIdx) (s : State) :
    Host.Outcome State Fault Refusal :=
  answerOk (recordI 0b00000#5 imm rs1 funct3 rd) s

/-- OP_IMM (spec R77): a shift's whole 12-bit field is the immediate. -/
def execOpImm (imm : Word) (rs1 : RegIdx) (funct3 : BitVec 3) (rd : RegIdx) (s : State) :
    Host.Outcome State Fault Refusal :=
  answerOk (recordI 0b00100#5 imm rs1 funct3 rd) s

/-- JALR (spec R78): the target is the consumer's to compute. -/
def execJalr (imm : Word) (rs1 : RegIdx) (funct3 : BitVec 3) (rd : RegIdx) (s : State) :
    Host.Outcome State Fault Refusal :=
  answerOk (recordI 0b11001#5 imm rs1 funct3 rd) s

/-- SYSTEM (spec R79): no trap, no privilege check (R101, R109). -/
def execSystem (imm : Word) (rs1 : RegIdx) (funct3 : BitVec 3) (rd : RegIdx) (s : State) :
    Host.Outcome State Fault Refusal :=
  answerOk (recordI 0b11100#5 imm rs1 funct3 rd) s

/-- MISC_MEM (spec R80): the block orders nothing (R39). -/
def execMiscMem (imm : Word) (rs1 : RegIdx) (funct3 : BitVec 3) (rd : RegIdx) (s : State) :
    Host.Outcome State Fault Refusal :=
  answerOk (recordI 0b00011#5 imm rs1 funct3 rd) s

end Sys2Proof.Machine
end

