-- ==== Sys2Proof/Machine/JFormat.lean ====
section
/-! DEFINITION. The J-format opcode class: JAL (spec R85). -/

namespace Sys2Proof.Machine

/-- JAL (spec R85): an offset is produced, no target (R17). -/
def execJal (imm : Word) (rd : RegIdx) (s : State) : Host.Outcome State Fault Refusal :=
  answerOk (recordJ 0b11011#5 imm rd) s

end Sys2Proof.Machine
end

