-- ==== Sys2Proof/Machine/RFormat.lean ====
section
/-! DEFINITION. The R-format opcode classes: OP, CUSTOM, AMO (spec R73 to R75). -/

namespace Sys2Proof.Machine

/-- OP (spec R73). -/
def execOp (funct7 : BitVec 7) (rs2 rs1 : RegIdx) (funct3 : BitVec 3) (rd : RegIdx) (s : State) :
    Host.Outcome State Fault Refusal :=
  answerOk (recordR 0b01100#5 funct7 rs2 rs1 funct3 rd) s

/-- CUSTOM, at the opcode the block is built with (spec R74, R113). -/
def execCustom (funct7 : BitVec 7) (rs2 rs1 : RegIdx) (funct3 : BitVec 3) (rd : RegIdx) (s : State) :
    Host.Outcome State Fault Refusal :=
  answerOk (recordR s.config.customSlot.opcode funct7 rs2 rs1 funct3 rd) s

/-- AMO: `funct7` is `funct5` above bits 26:25 (spec R75, R94). -/
def execAmo (funct5 : BitVec 5) (bits26to25 : BitVec 2) (rs2 rs1 : RegIdx) (funct3 : BitVec 3) (rd : RegIdx)
    (s : State) : Host.Outcome State Fault Refusal :=
  answerOk (recordR 0b01011#5 (funct5 ++ bits26to25) rs2 rs1 funct3 rd) s

end Sys2Proof.Machine
end

