-- ==== Sys2Proof/Machine/SFormat.lean ====
section
/-! DEFINITION. The S-format opcode class: STORE (spec R81). -/

namespace Sys2Proof.Machine

/-- STORE (spec R81): no access is made (R35). -/
def execStore (imm : Word) (rs2 rs1 : RegIdx) (funct3 : BitVec 3) (s : State) : Host.Outcome State Fault Refusal :=
  answerOk (recordS 0b01000#5 imm rs2 rs1 funct3) s

end Sys2Proof.Machine
end

