-- ==== Sys2Proof/Machine/UFormat.lean ====
section
/-! DEFINITION. The U-format opcode classes: LUI, AUIPC (spec R83, R84). -/

namespace Sys2Proof.Machine

/-- LUI (spec R83). -/
def execLui (imm : Word) (rd : RegIdx) (s : State) : Host.Outcome State Fault Refusal :=
  answerOk (recordU 0b01101#5 imm rd) s

/-- AUIPC (spec R84): the addition to a pc is the consumer's (R17). -/
def execAuipc (imm : Word) (rd : RegIdx) (s : State) : Host.Outcome State Fault Refusal :=
  answerOk (recordU 0b00101#5 imm rd) s

end Sys2Proof.Machine
end

