-- ==== Sys2Proof/Machine/Dispatch.lean ====
section
/-! DEFINITION. One arm per row of the opcode table, each one call of its meaning. -/

namespace Sys2Proof.Machine

def exec (i : Instr) (s : State) : Host.Outcome State Fault Refusal :=
  match i with
  | .op funct7 rs2 rs1 funct3 rd => Sys2Proof.Machine.execOp funct7 rs2 rs1 funct3 rd s
  | .custom funct7 rs2 rs1 funct3 rd => Sys2Proof.Machine.execCustom funct7 rs2 rs1 funct3 rd s
  | .amo funct5 low rs2 rs1 funct3 rd => Sys2Proof.Machine.execAmo funct5 low rs2 rs1 funct3 rd s
  | .load imm rs1 funct3 rd => Sys2Proof.Machine.execLoad imm rs1 funct3 rd s
  | .opImm imm rs1 funct3 rd => Sys2Proof.Machine.execOpImm imm rs1 funct3 rd s
  | .jalr imm rs1 funct3 rd => Sys2Proof.Machine.execJalr imm rs1 funct3 rd s
  | .system imm rs1 funct3 rd => Sys2Proof.Machine.execSystem imm rs1 funct3 rd s
  | .miscMem imm rs1 funct3 rd => Sys2Proof.Machine.execMiscMem imm rs1 funct3 rd s
  | .store imm rs2 rs1 funct3 => Sys2Proof.Machine.execStore imm rs2 rs1 funct3 s
  | .branch imm rs2 rs1 funct3 => Sys2Proof.Machine.execBranch imm rs2 rs1 funct3 s
  | .lui imm rd => Sys2Proof.Machine.execLui imm rd s
  | .auipc imm rd => Sys2Proof.Machine.execAuipc imm rd s
  | .jal imm rd => Sys2Proof.Machine.execJal imm rd s

end Sys2Proof.Machine
end

