-- ==== Sys2Proof/Machine/Present.lean ====
section
/-! DEFINITION. The block with a word on its input, and one action of the environment. -/

namespace Sys2Proof.Machine

/-- The block with the word `w` on its input: the decoded instruction's meaning, or the error (spec R67, R68). -/
def settle (w : Word) (s : State) : Host.Outcome State Fault Refusal :=
  match decode s.config.customSlot w with
  | .ok i => exec i (s.withInsn w)
  | .error e => raiseIllegalInstruction e.word (s.withInsn w)

/-- What one action of the environment does: a word presented is decoded, a field read is answered. -/
def respond (a : Stimulus) (s : State) : Host.Outcome State Fault Refusal :=
  match a with
  | .present w => settle w s
  | .read f => readField f s

end Sys2Proof.Machine
end

