-- ==== Sys2Proof/Machine/Step.lean ====
section
/-! DEFINITION. One step of the machine: one action of the environment and the block's answer to it. -/

namespace Sys2Proof.Machine

/-- One step takes the oldest action of the environment. With none left the input keeps its word, and the outputs are
what they are at every time, `decode(insn)` (spec R112). One step is one settled answer: the model has no time (R118,
R119; notes/assumptions/14).
DESIGN CHOICE (notes/assumptions/2): the environment's actions are a list, one taken a step. -/
def step (s : State) : Host.Outcome State Fault Refusal :=
  match s.stimuli with
  | [] => settle s.insn s
  | a :: rest => respond a (s.withStimuli rest)

/-- The state whose next step presents the word that a table row's bits stand for (notes/assumptions/4). -/
def State.withFetchWord (s : State) (nbits w : Nat) : State :=
  s.withStimuli (.present (tableWord nbits w) :: s.stimuli)

end Sys2Proof.Machine
end

