-- ==== Sys2Proof/Safety.lean ====
section
/-! DEFINITION. The terms claims use: a settled answer, a read that honours its contract, an environment that honours
every contract, and a run. -/

namespace Sys2Proof.Machine

/-- The answer is the one the block gives for the word on its input, as it is at every time (spec R112). -/
def State.Settled (s : State) : Prop := s.result = decodeRecord s.config.customSlot s.insn

/-- The contract of a read (spec R87, R88, R90, R95): there is a record, `imm` is read off format R only, and `funct5`
of AMO only. -/
def readAllowed (r : Except IllegalInstruction Decoded) (f : Field) : Bool :=
  match r with
  | .error _ => false
  | .ok d => !(f == .imm && d.format == .R) && !(f == .funct5 && d.opcode != amoOpcode)

/-- Every read the environment has queued honours its contract for the word that is on the input when its turn comes,
`insn` being the word there now ("callers are expected to check `format`/`opcode` first", spec R102). -/
def honoursContracts (slot : CustomSlot) (insn : Word) : List Stimulus → Bool
  | [] => true
  | .present w :: rest => honoursContracts slot w rest
  | .read f :: rest => readAllowed (decodeRecord slot insn) f && honoursContracts slot insn rest

/-- The producer's next action is to present `w`. -/
def State.presenting (s : State) (w : Word) : State := s.withStimuli (.present w :: s.stimuli)

/-- A consumer's next action is to read the field `f`. -/
def State.reading (s : State) (f : Field) : State := s.withStimuli (.read f :: s.stimuli)

/-- `s` once the block has answered the word `w` with the record `d`: the word is on the input, the record is the
answer, and nothing else has changed. -/
def State.answered (s : State) (w : Word) (d : Decoded) : State := (s.withInsn w).withResult (.ok d)

/-- The block answers the word `w`, presented in `s`, with the record `d`: the step goes on, and this is all it does. -/
def AnsweredWith (s : State) (w : Word) (d : Decoded) : Prop := step (s.presenting w) = .next (s.answered w d)

/-- `n` steps, ending at the first fault or refusal. -/
def run (n : Nat) (s : State) : Host.Outcome State Fault Refusal := Sys2Proof.core.run n s

end Sys2Proof.Machine
end

