-- ==== Sys2Proof/Certificates/Slice0/Obligations.lean ====
section
/-! DEFINITION. The statements for the provers. Bits of a word are written as slices `w.extractLsb' lo len`, not through
the model's own field functions, so that each statement can be held against the rule it cites. -/

open Sys2Proof Sys2Proof.Machine

/-! ### Validation and the opcode map -/

/-- Spec R55: a word is answered with a record exactly when it passes the three checks, the third against the thirteen
opcodes of R58 (the custom one is the parameter's); where one fails, the answer is IllegalInstruction. -/
def Obligations.AcceptedExactlyWhenTheThreeChecksPass : Prop :=
  ∀ (s : State) (w : Word),
    ((∃ d, AnsweredWith s w d) ↔
      (w ≠ 0x00000000#32 ∧ w ≠ 0xFFFFFFFF#32) ∧ w.extractLsb' 0 2 = 0b11#2 ∧
        w.extractLsb' 2 5 ∈ [0b01100#5, s.config.customSlot.opcode, 0b01011#5, 0b00000#5, 0b00100#5, 0b11001#5,
          0b11100#5, 0b00011#5, 0b01000#5, 0b11000#5, 0b01101#5, 0b00101#5, 0b11011#5]) ∧
    ((¬∃ d, AnsweredWith s w d) → ∃ t, step (s.presenting w) = .next t ∧ t.result = .error ⟨w⟩)

/-- Spec R98 and R25: when a check fails the error is the whole answer, it records the rejected word and nothing else,
and `illegal` = 1; `illegal` = 1 exactly then. -/
def Obligations.IllegalWordIsAnsweredWithTheErrorAlone : Prop :=
  ∀ (s : State) (w : Word),
    (legal s.config.customSlot w = false →
      step (s.presenting w) = .next ((s.withInsn w).withResult (.error ⟨w⟩))) ∧
    ∀ t, step (s.presenting w) = .next t →
      (t.ports.illegal = 1#1 ↔ legal s.config.customSlot w = false) ∧
      (t.ports.illegal = 0#1 ↔ ∃ d, t.result = .ok d)

/-- Spec R56 and R69: check 1 never decides on its own; the width marker and the opcode do, and the format is the
opcode's. -/
def Obligations.MarkerAndOpcodeAloneDecide : Prop :=
  ∀ (s : State) (w : Word),
    (legal s.config.customSlot w = true ↔
      w.extractLsb' 0 2 = 0b11#2 ∧ (formatOf s.config.customSlot (w.extractLsb' 2 5)).isSome) ∧
    (∀ d, AnsweredWith s w d → formatOf s.config.customSlot (w.extractLsb' 2 5) = some d.format) ∧
    (legal s.config.customSlot w = true → ∃ d, AnsweredWith s w d)

/-- Spec R57: every word with the width marker and a mapped opcode is answered with a record of the table's format, whatever
its other 25 bits hold. -/
def Obligations.OtherTwentyFiveBitsNeverDecideLegality : Prop :=
  ∀ (s : State) (w w' : Word), w.extractLsb' 0 2 = 0b11#2 → w.extractLsb' 0 7 = w'.extractLsb' 0 7 →
    (formatOf s.config.customSlot (w.extractLsb' 2 5)).isSome →
    ∃ d d', AnsweredWith s w d ∧ AnsweredWith s w' d' ∧
      formatOf s.config.customSlot (w.extractLsb' 2 5) = some d.format ∧ d'.format = d.format

/-- Spec R58: the table of opcodes, `full_opcode`s, classes and formats, with the default parameter; and the lookup, for every
value of the parameter and of the opcode: any opcode not listed is unmapped. -/
def Obligations.OpcodeMapIsTheTable : Prop :=
  OpcodeClass.all.map (fun c => (c.opcode .custom0, c.fullOpcode .custom0, c, c.format)) =
    [(0b01100#5, 0x33#7, .op, .R), (0b00010#5, 0x0B#7, .custom, .R), (0b01011#5, 0x2F#7, .amo, .R),
      (0b00000#5, 0x03#7, .load, .I), (0b00100#5, 0x13#7, .opImm, .I), (0b11001#5, 0x67#7, .jalr, .I),
      (0b11100#5, 0x73#7, .system, .I), (0b00011#5, 0x0F#7, .miscMem, .I), (0b01000#5, 0x23#7, .store, .S),
      (0b11000#5, 0x63#7, .branch, .B), (0b01101#5, 0x37#7, .lui, .U), (0b00101#5, 0x17#7, .auipc, .U),
      (0b11011#5, 0x6F#7, .jal, .J)] ∧
  ∀ (slot : CustomSlot) (op : BitVec 5),
    formatOf slot op =
      (if op = 0b01100#5 ∨ op = slot.opcode ∨ op = 0b01011#5 then some .R
      else if op = 0b00000#5 ∨ op = 0b00100#5 ∨ op = 0b11001#5 ∨ op = 0b11100#5 ∨ op = 0b00011#5 then some .I
      else if op = 0b01000#5 then some .S
      else if op = 0b11000#5 then some .B
      else if op = 0b01101#5 ∨ op = 0b00101#5 then some .U
      else if op = 0b11011#5 then some .J
      else none) ∧
    ∀ c : OpcodeClass, classOf slot op = some c ↔ op = c.opcode slot

/-- Spec R60: with the default parameter the nineteen opcodes listed are illegal; with another choice 0b00010 joins
them and the chosen value leaves them. A word that carries the width marker is answered with the error exactly when its
opcode is among them. -/
def Obligations.UnmappedOpcodesAreIllegal : Prop :=
  ∀ (s : State) (w : Word) (nineteen : List (BitVec 5)),
    nineteen = [0b00001#5, 0b00110#5, 0b00111#5, 0b01001#5, 0b01010#5, 0b01110#5, 0b01111#5, 0b10000#5, 0b10001#5,
      0b10010#5, 0b10011#5, 0b10100#5, 0b10101#5, 0b10110#5, 0b10111#5, 0b11010#5, 0b11101#5, 0b11110#5, 0b11111#5] →
    w.extractLsb' 0 2 = 0b11#2 →
    (s.config = Config.default →
      (step (s.presenting w) = .next ((s.withInsn w).withResult (.error ⟨w⟩)) ↔ w.extractLsb' 2 5 ∈ nineteen)) ∧
    (s.config ≠ Config.default →
      (step (s.presenting w) = .next ((s.withInsn w).withResult (.error ⟨w⟩)) ↔
        w.extractLsb' 2 5 ∈ 0b00010#5 :: nineteen ∧ w.extractLsb' 2 5 ≠ s.config.customSlot.opcode))

/-- Spec R99: the four causes, each with its condition; whichever hold, alone or together, the result is the one error, and
it is the result only where one holds. -/
def Obligations.EveryCauseGivesTheSameError : Prop :=
  ∀ (s : State) (w : Word),
    (.allZero ∈ illegalCauses s.config.customSlot w ↔ w = 0x00000000#32) ∧
    (.allOnes ∈ illegalCauses s.config.customSlot w ↔ w = 0xFFFFFFFF#32) ∧
    (.widthMarker ∈ illegalCauses s.config.customSlot w ↔ w.extractLsb' 0 2 ≠ 0b11#2) ∧
    (.unrecognizedOpcode ∈ illegalCauses s.config.customSlot w ↔
      formatOf s.config.customSlot (w.extractLsb' 2 5) = none) ∧
    (illegalCauses s.config.customSlot w ≠ [] ↔
      step (s.presenting w) = .next ((s.withInsn w).withResult (.error ⟨w⟩))) ∧
    (w = 0x00000000#32 → illegalCauses s.config.customSlot w = [.allZero, .widthMarker]) ∧
    (w = 0xFFFFFFFF#32 → illegalCauses s.config.customSlot w = [.allOnes, .unrecognizedOpcode])

/-! ### The decode function -/

/-- Spec R67 and R68: the machine, which runs each opcode class by a meaning of its own, answers every word of all 2^32
exactly as the spec's one function `decode` does, writes nothing else, and an error answer carries the word. -/
def Obligations.PresentedWordIsAnsweredByDecode : Prop :=
  (∀ (s : State) (w : Word),
    step (s.presenting w) = .next ((s.withInsn w).withResult (decodeRecord s.config.customSlot w)) ∧
    ((∃ d, decodeRecord s.config.customSlot w = .ok d) ∨ decodeRecord s.config.customSlot w = .error ⟨w⟩)) ∧
  (∀ s : State, ∃ d, AnsweredWith s 0x00000093#32 d ∧ d.format = .I ∧ d.opcode = 0b00100#5 ∧ d.funct3 = 0#3 ∧
    d.rd = 1#5 ∧ d.rs1 = 0#5 ∧ d.immI = 0#32) ∧
  (∀ s : State, ∃ t, step (s.presenting 0x00000000#32) = .next t ∧ t.result = .error ⟨0x00000000#32⟩)

/-- Spec R71: two machines built alike give field-for-field identical answers to the same word, whatever else they hold and
whatever was decoded before; each writes the word on its input and its answer, and nothing else. -/
def Obligations.AnswersDependOnTheWordAlone : Prop :=
  ∀ (s t : State) (w : Word), s.config = t.config →
    ∃ r, step (s.presenting w) = .next ((s.withInsn w).withResult r) ∧
      step (t.presenting w) = .next ((t.withInsn w).withResult r)

/-- Spec R24 and R31: the outputs depend on the input word alone. That this holds of unspecified ports too is DEDUCED
(notes/assumptions/8); `Settled` is kept by every step (EveryStepKeepsTheAnswerSettled). -/
def Obligations.OutputsDependOnTheWordAlone : Prop :=
  ∀ s t : State, s.Settled → t.Settled → s.config = t.config → s.insn = t.insn → s.result = t.result ∧ s.ports = t.ports

/-- Spec R71 and R117: after any words presented before it, a word's answer is the one it has alone, and the run leaves
nothing else behind. That words are presented one a step, from a queue, is the model's choice (notes/assumptions/2 and
4). -/
def Obligations.EarlierWordsDoNotChangeALaterAnswer : Prop :=
  ∀ (s : State) (earlier : List Word) (w : Word), s.stimuli = [] →
    run (earlier.length + 1) (s.feed (earlier ++ [w])) =
      .next ((s.withInsn w).withResult (decodeRecord s.config.customSlot w))

/-- Spec R112: at every time the outputs are `decode(insn)` of the current input: with no action left a step answers the
word on the input again, and a state already so answered does not change. That an idle step exists is the model's choice
(notes/assumptions/2). -/
def Obligations.IdleBlockHoldsItsAnswer : Prop :=
  ∀ s : State, s.stimuli = [] →
    step s = .next (s.withResult (decodeRecord s.config.customSlot s.insn)) ∧ (s.Settled → step s = .next s)

/-- Spec R72: the word is recoverable from its record, so two different legal words have different records. -/
def Obligations.RecordDeterminesTheWord : Prop :=
  ∀ (s : State) (w : Word) (d : Decoded), AnsweredWith s w d →
    w = d.funct7 ++ d.rs2 ++ d.rs1 ++ d.funct3 ++ d.rd ++ d.fullOpcode ∧
    ∀ w', AnsweredWith s w' d → w' = w

/-! ### Invariants -/

/-- What the model's reset leaves (notes/assumptions/3 and 5; the block itself has no reset, spec R112): the answer is the
one the block gives for the word on its input, and no queued read breaks a contract. -/
def Obligations.ResetAnswersTheWordOnItsInput : Prop :=
  State.reset.Settled ∧ State.reset.config = Config.default ∧ State.reset.insn = 0x00000000#32 ∧
    State.reset.result = .error ⟨0x00000000#32⟩ ∧ State.reset.ports.illegal = 1#1 ∧ State.reset.stimuli = [] ∧
    State.reset.sampled = none ∧
    honoursContracts State.reset.config.customSlot State.reset.insn State.reset.stimuli = true

/-- Spec R112: every step keeps the answer the one for the word on the input, from every state where it is. -/
def Obligations.EveryStepKeepsTheAnswerSettled : Prop :=
  ∀ s t : State, s.Settled → step s = .next t → t.Settled

/-- Spec R113: no step changes the parameter bound when the block is built, nor therefore the opcode map. -/
def Obligations.NoStepChangesTheBuildParameter : Prop :=
  ∀ s t : State, step s = .next t →
    t.config = s.config ∧ ∀ op, formatOf t.config.customSlot op = formatOf s.config.customSlot op

/-- Spec R21: the format of a record is derived solely from its opcode by the fixed mapping. Its opcode is a legal one and
its `full_opcode` is the opcode above the marker (R20, R43). -/
def Obligations.RecordsFormatFollowsItsOpcode : Prop :=
  ∀ (s : State) (d : Decoded), s.Settled → s.result = .ok d →
    formatOf s.config.customSlot d.opcode = some d.format ∧ d.opcode ∈ legalOpcodes s.config.customSlot ∧
      d.fullOpcode = d.opcode ++ 0b11#2 ∧
      ∀ (t : State) (d' : Decoded), t.Settled → t.config = s.config → t.result = .ok d' → d'.opcode = d.opcode →
        d'.format = d.format

/-! ### Fields and immediates -/

/-- Spec R42 to R45, R47 to R49 and R86: after any legal word, whatever its format, each raw getter is answered with the
bits at its field's place, and `format` with the record's format. -/
def Obligations.RawGettersReturnTheWordsBits : Prop :=
  ∀ (s : State) (w : Word), legal s.config.customSlot w = true → ∃ d, AnsweredWith s w d ∧
    ∀ f v, (f, v) ∈ [(Field.format, FieldValue.format d.format), (.opcode, .bits5 (w.extractLsb' 2 5)),
        (.fullOpcode, .bits7 (w.extractLsb' 0 7)), (.funct3, .bits3 (w.extractLsb' 12 3)),
        (.funct7, .bits7 (w.extractLsb' 25 7)), (.rd, .bits5 (w.extractLsb' 7 5)),
        (.rs1, .bits5 (w.extractLsb' 15 5)), (.rs2, .bits5 (w.extractLsb' 20 5))] →
      step ((s.answered w d).reading f) = .next ((s.answered w d).withSampled ⟨f, v⟩)

/-- Spec R50: the I immediate of every legal word: its low 12 bits are bits 31:20, every higher bit is `insn[31]`, and its
signed value lies in -2048..2047. -/
def Obligations.ImmediateIExtendsBits31To20 : Prop :=
  ∀ (s : State) (w : Word), legal s.config.customSlot w = true → ∃ d, AnsweredWith s w d ∧
    d.immI = (w.extractLsb' 20 12).signExtend 32 ∧ d.immI.extractLsb' 0 12 = w.extractLsb' 20 12 ∧
    (∀ k, 12 ≤ k → k < 32 → d.immI.getLsbD k = w.getLsbD 31) ∧ -2048 ≤ d.immI.toInt ∧ d.immI.toInt ≤ 2047

/-- Spec R51: the S immediate of every legal word: bits 31:25 at positions 11:5, bits 11:7 at 4:0, every higher bit
`insn[31]`, and its signed value in -2048..2047. -/
def Obligations.ImmediateSJoinsItsTwoParts : Prop :=
  ∀ (s : State) (w : Word), legal s.config.customSlot w = true → ∃ d, AnsweredWith s w d ∧
    d.immS.extractLsb' 5 7 = w.extractLsb' 25 7 ∧ d.immS.extractLsb' 0 5 = w.extractLsb' 7 5 ∧
    (∀ k, 11 ≤ k → k < 32 → d.immS.getLsbD k = w.getLsbD 31) ∧ -2048 ≤ d.immS.toInt ∧ d.immS.toInt ≤ 2047

/-- Spec R52: the B immediate of every legal word: bit 31 at position 12 and above, bit 7 at 11, bits 30:25 at 10:5, bits
11:8 at 4:1, 0 at position 0, and its signed value in -4096..4094. -/
def Obligations.ImmediateBReordersItsBits : Prop :=
  ∀ (s : State) (w : Word), legal s.config.customSlot w = true → ∃ d, AnsweredWith s w d ∧
    d.immB.getLsbD 0 = false ∧ d.immB.extractLsb' 1 4 = w.extractLsb' 8 4 ∧
    d.immB.extractLsb' 5 6 = w.extractLsb' 25 6 ∧ d.immB.getLsbD 11 = w.getLsbD 7 ∧
    (∀ k, 12 ≤ k → k < 32 → d.immB.getLsbD k = w.getLsbD 31) ∧ -4096 ≤ d.immB.toInt ∧ d.immB.toInt ≤ 4094

/-- Spec R53: the U immediate of every legal word: bits 31:12 kept in place, the low 12 bits 0 (`insn AND 0xFFFFF000`). -/
def Obligations.ImmediateUKeepsBits31To12 : Prop :=
  ∀ (s : State) (w : Word), legal s.config.customSlot w = true → ∃ d, AnsweredWith s w d ∧
    d.immU.extractLsb' 12 20 = w.extractLsb' 12 20 ∧ d.immU.extractLsb' 0 12 = 0#12 ∧ d.immU = w &&& 0xFFFFF000#32

/-- Spec R54: the J immediate of every legal word: bit 31 at position 20 and above, bits 19:12 in place, bit 20 at 11, bits
30:21 at 10:1, 0 at position 0, and its signed value in -1048576..1048574. -/
def Obligations.ImmediateJReordersItsBits : Prop :=
  ∀ (s : State) (w : Word), legal s.config.customSlot w = true → ∃ d, AnsweredWith s w d ∧
    d.immJ.getLsbD 0 = false ∧ d.immJ.extractLsb' 1 10 = w.extractLsb' 21 10 ∧ d.immJ.getLsbD 11 = w.getLsbD 20 ∧
    d.immJ.extractLsb' 12 8 = w.extractLsb' 12 8 ∧
    (∀ k, 20 ≤ k → k < 32 → d.immJ.getLsbD k = w.getLsbD 31) ∧
    -1048576 ≤ d.immJ.toInt ∧ d.immJ.toInt ≤ 1048574

/-! ### The read contracts -/

/-- Spec R88 and R89: after a legal word, a read of the immediate is answered with its format's own immediate, computed
from the word; on format R it is the contract fault, never a value. -/
def Obligations.ImmediateReadIsTheFormatsOwn : Prop :=
  ∀ (s : State) (w : Word), legal s.config.customSlot w = true → ∃ d, AnsweredWith s w d ∧
    step ((s.answered w d).reading .imm) =
      match formatOf s.config.customSlot (w.extractLsb' 2 5) with
      | some .I => .next ((s.answered w d).withSampled ⟨.imm, .word (immIOf w)⟩)
      | some .S => .next ((s.answered w d).withSampled ⟨.imm, .word (immSOf w)⟩)
      | some .B => .next ((s.answered w d).withSampled ⟨.imm, .word (immBOf w)⟩)
      | some .U => .next ((s.answered w d).withSampled ⟨.imm, .word (immUOf w)⟩)
      | some .J => .next ((s.answered w d).withSampled ⟨.imm, .word (immJOf w)⟩)
      | _ => .fault (.contractFault .imm .R (w.extractLsb' 2 5))

/-- Spec R90: after a legal word, a read of `funct5` is answered with bits 31:27 when the opcode is AMO's, and is the
contract fault on every other opcode, CUSTOM and OP among them. -/
def Obligations.Funct5ReadOnlyForAmo : Prop :=
  ∀ (s : State) (w : Word), legal s.config.customSlot w = true → ∃ d, AnsweredWith s w d ∧
    step ((s.answered w d).reading .funct5) =
      if w.extractLsb' 2 5 = 0b01011#5 then .next ((s.answered w d).withSampled ⟨.funct5, .bits5 (w.extractLsb' 27 5)⟩)
      else .fault (.contractFault .funct5 d.format (w.extractLsb' 2 5))

/-- Spec R87: a step faults exactly when a consumer reads `imm` of a format R record or `funct5` of a record whose opcode is
not AMO, and the fault names the getter, the format and the opcode. -/
def Obligations.StepFaultsExactlyOnABrokenContract : Prop :=
  ∀ (s : State) (e : Fault),
    step s = .fault e ↔ ∃ f rest d, s.stimuli = .read f :: rest ∧ s.result = .ok d ∧
      (f = .imm ∧ d.format = .R ∨ f = .funct5 ∧ d.opcode ≠ 0b01011#5) ∧ e = .contractFault f d.format d.opcode

/-- Spec R95: no getter can be applied where no record exists. The model refuses such a read (notes/assumptions/11), and
refuses nothing else. -/
def Obligations.StepRefusesExactlyAReadWithoutARecord : Prop :=
  ∀ (s : State) (r : Refusal),
    step s = .refused r ↔ ∃ f rest e, s.stimuli = .read f :: rest ∧ s.result = .error e ∧ r = .noRecord f

/-- Spec R20 and R31: the record is never mutated by being read: a read that is answered changes only what the consumer holds,
and the value is the record's. -/
def Obligations.ReadsNeverChangeTheRecord : Prop :=
  ∀ (s t : State) (f : Field) (rest : List Stimulus), s.stimuli = .read f :: rest → step s = .next t →
    t.config = s.config ∧ t.insn = s.insn ∧ t.result = s.result ∧ t.ports = s.ports ∧ t.stimuli = rest ∧
      ∃ d v, s.result = .ok d ∧ d.read f = .ok v ∧ t.sampled = some ⟨f, v⟩

/-- Spec R94: for AMO words `funct5` is `funct7[6:2]` and `funct7[1:0]` is `insn[26:25]`; `get_funct7()` is answered with all
seven bits. -/
def Obligations.AmoFunct7OverlapsFunct5 : Prop :=
  ∀ (s : State) (w : Word), w.extractLsb' 0 7 = 0x2F#7 → ∃ d, AnsweredWith s w d ∧
    d.getFunct5 = .ok (d.funct7.extractLsb' 2 5) ∧ d.funct7.extractLsb' 0 2 = w.extractLsb' 25 2 ∧
    step ((s.answered w d).reading .funct7) =
      .next ((s.answered w d).withSampled ⟨.funct7, .bits7 (w.extractLsb' 25 7)⟩)

/-! ### The output ports -/

/-- Spec R24: every output port beside `illegal` = 0, in terms of the input word. -/
def Obligations.PortsOfALegalWord : Prop :=
  ∀ (s : State) (w : Word), legal s.config.customSlot w = true → ∃ d, AnsweredWith s w d ∧
    (s.answered w d).ports.illegal = 0#1 ∧
    (s.answered w d).ports.format =
      (match d.format with | .R => 0#3 | .I => 1#3 | .S => 2#3 | .B => 3#3 | .U => 4#3 | .J => 5#3) ∧
    (s.answered w d).ports.opcode = w.extractLsb' 2 5 ∧
    (s.answered w d).ports.fullOpcode = w.extractLsb' 0 7 ∧
    (s.answered w d).ports.funct3 = w.extractLsb' 12 3 ∧
    (s.answered w d).ports.funct7 = w.extractLsb' 25 7 ∧
    (s.answered w d).ports.funct5 = w.extractLsb' 27 5 ∧
    ((s.answered w d).ports.funct5Valid = if w.extractLsb' 2 5 = 0b01011#5 then 1#1 else 0#1) ∧
    (s.answered w d).ports.rd = w.extractLsb' 7 5 ∧
    (s.answered w d).ports.rs1 = w.extractLsb' 15 5 ∧
    (s.answered w d).ports.rs2 = w.extractLsb' 20 5 ∧
    (∀ v, d.immOf = some v → (s.answered w d).ports.imm = v) ∧
    ((s.answered w d).ports.immValid = if d.format = .R then 0#1 else 1#1)

/-- Spec R26: the `format` port carries one of six codes and never 0b110 or 0b111, and beside a record it is the record's.
That this holds beside `illegal` = 1 too is DEDUCED (notes/assumptions/9). -/
def Obligations.FormatPortCarriesOneOfSixCodes : Prop :=
  (∀ s : State, s.ports.format ≠ 0b110#3 ∧ s.ports.format ≠ 0b111#3 ∧
    (Format.ofCode s.ports.format).isSome ∧
    ∀ d, s.result = .ok d → Format.ofCode s.ports.format = some d.format) ∧
  Format.ofCode 0b110#3 = none ∧ Format.ofCode 0b111#3 = none

/-- Spec R28 and R29: a read through the contract goes on exactly where its strobe is 1, and faults where it is 0; the
`funct5` port carries `funct7[6:2]` either way. -/
def Obligations.StrobesTellWhichReadsGoOn : Prop :=
  ∀ (s : State) (d : Decoded), s.Settled → s.result = .ok d →
    (s.ports.immValid = 1#1 ↔ ∃ t, step (s.reading .imm) = .next t) ∧
    (s.ports.immValid = 0#1 ↔ step (s.reading .imm) = .fault (.contractFault .imm .R d.opcode)) ∧
    (s.ports.funct5Valid = 1#1 ↔ ∃ t, step (s.reading .funct5) = .next t) ∧
    (s.ports.funct5Valid = 0#1 ↔ step (s.reading .funct5) = .fault (.contractFault .funct5 d.format d.opcode)) ∧
    s.ports.funct5 = s.ports.funct7.extractLsb' 2 5

/-! ### Meaning of fields, and the diagnostic projection -/

/-- Spec R96: the diagnostic rendering of a record selects these fields by its format alone, in this order, each with what
its getter answers, and never breaks a contract. -/
def Obligations.DiagnosticSelectsByFormatAndNeverFaults : Prop :=
  ∀ d : Decoded, ∃ l, d.diagnostic = .ok l ∧
    l.map Sample.field = (match d.format with
      | .R => [.opcode, .fullOpcode, .funct3, .funct7, .rd, .rs1, .rs2]
      | .I => [.opcode, .fullOpcode, .funct3, .rd, .rs1, .imm]
      | .S => [.opcode, .fullOpcode, .funct3, .rs1, .rs2, .imm]
      | .B => [.opcode, .fullOpcode, .funct3, .rs1, .rs2, .imm]
      | .U => [.opcode, .fullOpcode, .rd, .imm]
      | .J => [.opcode, .fullOpcode, .rd, .imm]) ∧
    ∀ p ∈ l, d.read p.field = .ok p.value

/-- Spec R91: the meaningful fields of each format, which are those of the diagnostic selection, and `funct5` for AMO alone; a
field with a meaning is always answered. -/
def Obligations.MeaningfulFieldsAreTheSelectedOnes : Prop :=
  ∀ (d : Decoded) (f : Field),
    (d.meaningful .funct3 = true ↔ d.format ∈ [.R, .I, .S, .B]) ∧ (d.meaningful .funct7 = true ↔ d.format = .R) ∧
    (d.meaningful .rd = true ↔ d.format ∈ [.R, .I, .U, .J]) ∧ (d.meaningful .rs1 = true ↔ d.format ∈ [.R, .I, .S, .B]) ∧
    (d.meaningful .rs2 = true ↔ d.format ∈ [.R, .S, .B]) ∧ (d.meaningful .imm = true ↔ d.format ≠ .R) ∧
    (d.meaningful .funct5 = true ↔ d.opcode = 0b01011#5) ∧
    (f ≠ .format → f ≠ .funct5 → (d.meaningful f = true ↔ f ∈ diagFields d.format)) ∧
    (d.meaningful f = true → ∃ v, d.read f = .ok v)

/-! ### Encoding -/

/-- For every instruction whose immediate its format encodes, at every value of every operand and every choice of the custom
opcode, the decoder reads back from its word the instruction itself. -/
def Obligations.DecodeInvertsEncode : Prop :=
  ∀ (slot : CustomSlot) (i : Instr), i.WellFormed → decode slot (encode slot i) = .ok i

/-- Every word the decoder accepts has one instruction, a well-formed one, and that instruction's word is it. -/
def Obligations.EncodeInvertsDecode : Prop :=
  ∀ (slot : CustomSlot) (w : Word) (i : Instr), decode slot w = .ok i → i.WellFormed ∧ encode slot i = w

/-- Words of spec R73 to R85 and their instructions, one of each class, written out from the spec's encodings with the default
parameter. -/
def Obligations.SpecsExampleWordsDecode : Prop :=
  decode .custom0 0x407302B3#32 = .ok (.op 0b0100000#7 7#5 6#5 0#3 5#5) ∧
  decode .custom0 0xFE41A08B#32 = .ok (.custom 0b1111111#7 4#5 3#5 0b010#3 1#5) ∧
  decode .custom0 0x06C5A52F#32 = .ok (.amo 0#5 0b11#2 12#5 11#5 0b010#3 10#5) ∧
  decode .custom0 0xFFC12283#32 = .ok (.load 0xFFFFFFFC#32 2#5 0b010#3 5#5) ∧
  decode .custom0 0xFE010113#32 = .ok (.opImm 0xFFFFFFE0#32 2#5 0#3 2#5) ∧
  decode .custom0 0x00008067#32 = .ok (.jalr 0#32 1#5 0#3 0#5) ∧
  decode .custom0 0x300312F3#32 = .ok (.system 0x300#32 6#5 0b001#3 5#5) ∧
  decode .custom0 0x0FF0000F#32 = .ok (.miscMem 0xFF#32 0#5 0#3 0#5) ∧
  decode .custom0 0xFE112C23#32 = .ok (.store 0xFFFFFFF8#32 1#5 2#5 0b010#3) ∧
  decode .custom0 0xFE009CE3#32 = .ok (.branch 0xFFFFFFF8#32 0#5 1#5 0b001#3) ∧
  decode .custom0 0x123452B7#32 = .ok (.lui 0x12345000#32 5#5) ∧
  decode .custom0 0xFFFFF097#32 = .ok (.auipc 0xFFFFF000#32 1#5) ∧
  decode .custom0 0x001000EF#32 = .ok (.jal 0x800#32 1#5)

/-- Spec R33: four bytes, lowest address first, make the word whose bits 7:0 are the first byte's; decoding bytes is decoding
that word and leaves the bytes after it. What fewer than four bytes give is the model's choice (notes/assumptions/13). -/
def Obligations.ProducersBytesMakeTheWord : Prop :=
  (∀ b0 b1 b2 b3 : Byte,
    (wordOfBytes b0 b1 b2 b3).extractLsb' 0 8 = b0 ∧ (wordOfBytes b0 b1 b2 b3).extractLsb' 8 8 = b1 ∧
    (wordOfBytes b0 b1 b2 b3).extractLsb' 16 8 = b2 ∧ (wordOfBytes b0 b1 b2 b3).extractLsb' 24 8 = b3) ∧
  (∀ (slot : CustomSlot) (w : Word) (rest : List Byte),
    decodeBytes slot (bytesOfWord w ++ rest) =
      match decode slot w with
      | .ok i => .ok (i, rest)
      | .error e => .error (.illegalInstruction e)) ∧
  ∀ (w : Word) (rest : List Byte), wordsOfImage (bytesOfWord w ++ rest) = w :: wordsOfImage rest

/-! ### Instructions: completion, result and frame -/

/-- When the word presented, or the word left on the input with no action to come, decodes to an instruction, the step is that
instruction's meaning with the word on the input; around it the step takes the action off the queue and does no more. -/
def Obligations.StepRunsTheDecodedInstruction : Prop :=
  ∀ (s : State) (w : Word) (i : Instr), decode s.config.customSlot w = .ok i →
    step (s.presenting w) = exec i (s.withInsn w) ∧
    (∀ rest, s.stimuli = .present w :: rest → step s = exec i ((s.withStimuli rest).withInsn w)) ∧
    (s.stimuli = [] → s.insn = w → step s = exec i s)

/-- Every instruction completes in every state, with a record of its own class, and leaves unchanged everything but the
answer: the parameter, the input, the environment's actions and what a consumer holds. -/
def Obligations.EveryInstructionCompletesAndOnlyAnswers : Prop :=
  ∀ (i : Instr) (s : State), ∃ t d, exec i s = .next t ∧ t.result = .ok d ∧
    d.opcode = i.opcodeClass.opcode s.config.customSlot ∧ d.format = i.opcodeClass.format ∧
    t.config = s.config ∧ t.insn = s.insn ∧ t.stimuli = s.stimuli ∧ t.sampled = s.sampled

/-- OP, CUSTOM and AMO complete in every state with the record of their fields; no immediate is readable, and `funct5` is
read off AMO alone. -/
def Obligations.RInstructionsAnswerTheirFields : Prop :=
  ∀ (s : State) (funct7 : BitVec 7) (funct5 : BitVec 5) (low : BitVec 2) (rs2 rs1 : RegIdx) (funct3 : BitVec 3)
    (rd : RegIdx) (i : Instr) (opcode : BitVec 5) (f7 : BitVec 7),
    (i, opcode, f7) ∈ [(.op funct7 rs2 rs1 funct3 rd, 0b01100#5, funct7),
      (.custom funct7 rs2 rs1 funct3 rd, s.config.customSlot.opcode, funct7),
      (.amo funct5 low rs2 rs1 funct3 rd, 0b01011#5, funct5 ++ low)] →
    ∃ d, exec i s = .next (s.withResult (.ok d)) ∧ d.format = .R ∧ d.opcode = opcode ∧
      d.fullOpcode = opcode ++ 0b11#2 ∧ d.funct7 = f7 ∧ d.rs2 = rs2 ∧ d.rs1 = rs1 ∧ d.funct3 = funct3 ∧ d.rd = rd ∧
      d.getImm = .error (.contractFault .imm .R opcode) ∧
      d.getFunct5 = if opcode = 0b01011#5 then .ok (f7.extractLsb' 2 5) else .error (.contractFault .funct5 .R opcode)

/-- LOAD, OP_IMM, JALR, SYSTEM and MISC_MEM complete in every state with the record of their fields and the immediate they
hold; raw `funct7` and `rs2` are the immediate's bits 11:5 and 4:0. -/
def Obligations.IInstructionsAnswerTheirFields : Prop :=
  ∀ (s : State) (imm : Word) (rs1 : RegIdx) (funct3 : BitVec 3) (rd : RegIdx) (i : Instr) (opcode : BitVec 5),
    -2048 ≤ imm.toInt → imm.toInt ≤ 2047 →
    (i, opcode) ∈ [(.load imm rs1 funct3 rd, 0b00000#5), (.opImm imm rs1 funct3 rd, 0b00100#5),
      (.jalr imm rs1 funct3 rd, 0b11001#5), (.system imm rs1 funct3 rd, 0b11100#5),
      (.miscMem imm rs1 funct3 rd, 0b00011#5)] →
    ∃ d, exec i s = .next (s.withResult (.ok d)) ∧ d.format = .I ∧ d.opcode = opcode ∧
      d.fullOpcode = opcode ++ 0b11#2 ∧ d.rs1 = rs1 ∧ d.funct3 = funct3 ∧ d.rd = rd ∧ d.getImm = .ok imm ∧
      d.funct7 = imm.extractLsb' 5 7 ∧ d.rs2 = imm.extractLsb' 0 5 ∧
      d.getFunct5 = .error (.contractFault .funct5 .I opcode)

/-- STORE completes in every state with the record of its fields and the immediate it holds; raw `funct7` and `rd` are the
immediate's bits 11:5 and 4:0. -/
def Obligations.StoreAnswersItsFields : Prop :=
  ∀ (s : State) (imm : Word) (rs2 rs1 : RegIdx) (funct3 : BitVec 3), -2048 ≤ imm.toInt → imm.toInt ≤ 2047 →
    ∃ d, exec (.store imm rs2 rs1 funct3) s = .next (s.withResult (.ok d)) ∧ d.format = .S ∧ d.opcode = 0b01000#5 ∧
      d.fullOpcode = 0x23#7 ∧ d.rs2 = rs2 ∧ d.rs1 = rs1 ∧ d.funct3 = funct3 ∧ d.getImm = .ok imm ∧
      d.funct7 = imm.extractLsb' 5 7 ∧ d.rd = imm.extractLsb' 0 5 ∧
      d.getFunct5 = .error (.contractFault .funct5 .S 0b01000#5)

/-- BRANCH completes in every state with the record of its fields and the even offset it holds; raw `rd` is
`{imm_B[4:1], imm_B[11]}` and raw `funct7` `{imm_B[12], imm_B[10:5]}`. -/
def Obligations.BranchAnswersItsFields : Prop :=
  ∀ (s : State) (imm : Word) (rs2 rs1 : RegIdx) (funct3 : BitVec 3), -4096 ≤ imm.toInt → imm.toInt ≤ 4094 →
    imm.extractLsb' 0 1 = 0#1 →
    ∃ d, exec (.branch imm rs2 rs1 funct3) s = .next (s.withResult (.ok d)) ∧ d.format = .B ∧ d.opcode = 0b11000#5 ∧
      d.fullOpcode = 0x63#7 ∧ d.rs2 = rs2 ∧ d.rs1 = rs1 ∧ d.funct3 = funct3 ∧ d.getImm = .ok imm ∧
      d.rd = imm.extractLsb' 1 4 ++ imm.extractLsb' 11 1 ∧ d.funct7 = imm.extractLsb' 12 1 ++ imm.extractLsb' 5 6 ∧
      d.getFunct5 = .error (.contractFault .funct5 .B 0b11000#5)

/-- LUI and AUIPC complete in every state with the record of their fields and the immediate they hold; the raw fields above
`rd` are the immediate's own bits. -/
def Obligations.UInstructionsAnswerTheirFields : Prop :=
  ∀ (s : State) (imm : Word) (rd : RegIdx) (i : Instr) (opcode : BitVec 5), imm.extractLsb' 0 12 = 0#12 →
    (i, opcode) ∈ [(.lui imm rd, 0b01101#5), (.auipc imm rd, 0b00101#5)] →
    ∃ d, exec i s = .next (s.withResult (.ok d)) ∧ d.format = .U ∧ d.opcode = opcode ∧
      d.fullOpcode = opcode ++ 0b11#2 ∧ d.rd = rd ∧ d.getImm = .ok imm ∧ d.funct7 = imm.extractLsb' 25 7 ∧
      d.rs2 = imm.extractLsb' 20 5 ∧ d.rs1 = imm.extractLsb' 15 5 ∧ d.funct3 = imm.extractLsb' 12 3 ∧
      d.getFunct5 = .error (.contractFault .funct5 .U opcode)

/-- JAL completes in every state with the record of its fields and the even offset it holds. -/
def Obligations.JalAnswersItsFields : Prop :=
  ∀ (s : State) (imm : Word) (rd : RegIdx), -1048576 ≤ imm.toInt → imm.toInt ≤ 1048574 → imm.extractLsb' 0 1 = 0#1 →
    ∃ d, exec (.jal imm rd) s = .next (s.withResult (.ok d)) ∧ d.format = .J ∧ d.opcode = 0b11011#5 ∧
      d.fullOpcode = 0x6F#7 ∧ d.rd = rd ∧ d.getImm = .ok imm ∧
      d.funct7 = imm.extractLsb' 20 1 ++ imm.extractLsb' 5 6 ∧ d.rs2 = imm.extractLsb' 1 4 ++ imm.extractLsb' 11 1 ∧
      d.rs1 = imm.extractLsb' 15 5 ∧ d.funct3 = imm.extractLsb' 12 3 ∧
      d.getFunct5 = .error (.contractFault .funct5 .J 0b11011#5)

/-! ### Words of each format -/

/-- Spec R73 to R75: every word of an R-format class, whatever its other bits, is answered with the record and the outputs the
class rule gives; and the example of each rule (CUSTOM's with the default parameter). -/
def Obligations.RWordsAreAnsweredByTheirClassRule : Prop :=
  (∀ (s : State) (w : Word) (opcode : BitVec 5) (funct5Valid : BitVec 1),
    (opcode, funct5Valid) ∈ [(0b01100#5, 0#1), (s.config.customSlot.opcode, 0#1), (0b01011#5, 1#1)] →
    w.extractLsb' 0 7 = opcode ++ 0b11#2 →
    ∃ d, AnsweredWith s w d ∧ d.format = .R ∧ d.opcode = opcode ∧ d.fullOpcode = opcode ++ 0b11#2 ∧
      d.funct3 = w.extractLsb' 12 3 ∧ d.funct7 = w.extractLsb' 25 7 ∧ d.funct5 = w.extractLsb' 27 5 ∧
      d.rd = w.extractLsb' 7 5 ∧ d.rs1 = w.extractLsb' 15 5 ∧ d.rs2 = w.extractLsb' 20 5 ∧
      d.immI = immIOf w ∧ d.immS = immSOf w ∧ d.immB = immBOf w ∧ d.immU = immUOf w ∧ d.immJ = immJOf w ∧
      d.getImm = .error (.contractFault .imm .R opcode) ∧
      (d.getFunct5 = if funct5Valid = 1#1 then .ok (w.extractLsb' 27 5)
        else .error (.contractFault .funct5 .R opcode)) ∧
      (s.answered w d).ports.illegal = 0#1 ∧ (s.answered w d).ports.format = 0b000#3 ∧
      (s.answered w d).ports.immValid = 0#1 ∧ (s.answered w d).ports.funct5Valid = funct5Valid) ∧
  (∀ s : State, ∃ d, AnsweredWith s 0x407302B3#32 d ∧ d.funct3 = 0#3 ∧ d.funct7 = 0b0100000#7 ∧ d.rd = 5#5 ∧
    d.rs1 = 6#5 ∧ d.rs2 = 7#5) ∧
  (∀ s : State, s.config = Config.default → ∃ d, AnsweredWith s 0xFE41A08B#32 d ∧ d.opcode = 0b00010#5 ∧
    d.funct3 = 0b010#3 ∧ d.funct7 = 0b1111111#7 ∧ d.rd = 1#5 ∧ d.rs1 = 3#5 ∧ d.rs2 = 4#5) ∧
  (∀ s : State, ∃ d, AnsweredWith s 0x06C5A52F#32 d ∧ d.funct3 = 0b010#3 ∧ d.funct7 = 0b0000011#7 ∧
    d.getFunct5 = .ok 0#5 ∧ d.rd = 10#5 ∧ d.rs1 = 11#5 ∧ d.rs2 = 12#5)

/-- Spec R76 to R80: every word of an I-format class, whatever its other bits, is answered with the record and the outputs the
class rule gives; and the example of each rule. -/
def Obligations.IWordsAreAnsweredByTheirClassRule : Prop :=
  (∀ (s : State) (w : Word) (opcode : BitVec 5),
    opcode ∈ [0b00000#5, 0b00100#5, 0b11001#5, 0b11100#5, 0b00011#5] → w.extractLsb' 0 7 = opcode ++ 0b11#2 →
    ∃ d, AnsweredWith s w d ∧ d.format = .I ∧ d.opcode = opcode ∧ d.fullOpcode = opcode ++ 0b11#2 ∧
      d.funct3 = w.extractLsb' 12 3 ∧ d.rd = w.extractLsb' 7 5 ∧ d.rs1 = w.extractLsb' 15 5 ∧
      d.funct7 = w.extractLsb' 25 7 ∧ d.rs2 = w.extractLsb' 20 5 ∧
      d.getImm = .ok ((w.extractLsb' 20 12).signExtend 32) ∧
      d.getFunct5 = .error (.contractFault .funct5 .I opcode) ∧
      (s.answered w d).ports.illegal = 0#1 ∧ (s.answered w d).ports.format = 0b001#3 ∧
      (s.answered w d).ports.imm = (w.extractLsb' 20 12).signExtend 32 ∧
      (s.answered w d).ports.immValid = 1#1 ∧ (s.answered w d).ports.funct5Valid = 0#1) ∧
  ∀ (s : State) (w : Word) (funct3 : BitVec 3) (rd rs1 : RegIdx) (imm : Word),
    (w, funct3, rd, rs1, imm) ∈ [(0xFFC12283#32, 0b010#3, 5#5, 2#5, 0xFFFFFFFC#32),
      (0x00000093#32, 0#3, 1#5, 0#5, 0#32), (0xFE010113#32, 0#3, 2#5, 2#5, 0xFFFFFFE0#32),
      (0x4035D513#32, 0b101#3, 10#5, 11#5, 0x403#32), (0x00008067#32, 0#3, 0#5, 1#5, 0#32),
      (0x00100073#32, 0#3, 0#5, 0#5, 1#32), (0x300312F3#32, 0b001#3, 5#5, 6#5, 0x300#32),
      (0xC00022F3#32, 0b010#3, 5#5, 0#5, 0xFFFFFC00#32), (0x0FF0000F#32, 0#3, 0#5, 0#5, 0xFF#32),
      (0x8330000F#32, 0#3, 0#5, 0#5, 0xFFFFF833#32)] →
    ∃ d, AnsweredWith s w d ∧ d.funct3 = funct3 ∧ d.rd = rd ∧ d.rs1 = rs1 ∧ d.getImm = .ok imm

/-- Spec R81: every STORE word, whatever its other bits, is answered with the record and the outputs the rule gives; and its
example and corner cases. -/
def Obligations.StoreWordsAreAnsweredByTheirRule : Prop :=
  (∀ (s : State) (w : Word), w.extractLsb' 0 7 = 0x23#7 →
    ∃ d, AnsweredWith s w d ∧ d.format = .S ∧ d.opcode = 0b01000#5 ∧ d.fullOpcode = 0x23#7 ∧
      d.funct3 = w.extractLsb' 12 3 ∧ d.rs1 = w.extractLsb' 15 5 ∧ d.rs2 = w.extractLsb' 20 5 ∧
      d.funct7 = w.extractLsb' 25 7 ∧ d.rd = w.extractLsb' 7 5 ∧
      d.getImm = .ok ((w.extractLsb' 25 7 ++ w.extractLsb' 7 5).signExtend 32) ∧
      d.getFunct5 = .error (.contractFault .funct5 .S 0b01000#5) ∧
      (s.answered w d).ports.illegal = 0#1 ∧ (s.answered w d).ports.format = 0b010#3 ∧
      d.getImm = .ok (s.answered w d).ports.imm ∧
      (s.answered w d).ports.immValid = 1#1 ∧ (s.answered w d).ports.funct5Valid = 0#1) ∧
  ∀ (s : State) (w : Word) (funct3 : BitVec 3) (rd rs1 rs2 : RegIdx) (imm : Word),
    (w, funct3, rd, rs1, rs2, imm) ∈ [(0xFE112C23#32, 0b010#3, 24#5, 2#5, 1#5, 0xFFFFFFF8#32),
      (0x7EB50FA3#32, 0#3, 31#5, 10#5, 11#5, 0x7FF#32), (0x80000023#32, 0#3, 0#5, 0#5, 0#5, 0xFFFFF800#32)] →
    ∃ d, AnsweredWith s w d ∧ d.funct3 = funct3 ∧ d.rd = rd ∧ d.rs1 = rs1 ∧ d.rs2 = rs2 ∧ d.getImm = .ok imm

/-- Spec R82: every BRANCH word, whatever its other bits, is answered with the record and the outputs the rule gives, its
offset even; and its examples and corner cases. -/
def Obligations.BranchWordsAreAnsweredByTheirRule : Prop :=
  (∀ (s : State) (w : Word), w.extractLsb' 0 7 = 0x63#7 →
    ∃ d, AnsweredWith s w d ∧ d.format = .B ∧ d.opcode = 0b11000#5 ∧ d.fullOpcode = 0x63#7 ∧
      d.funct3 = w.extractLsb' 12 3 ∧ d.rs1 = w.extractLsb' 15 5 ∧ d.rs2 = w.extractLsb' 20 5 ∧
      d.funct7 = w.extractLsb' 25 7 ∧ d.rd = w.extractLsb' 7 5 ∧
      d.getImm = .ok ((w.extractLsb' 31 1 ++ w.extractLsb' 7 1 ++ w.extractLsb' 25 6 ++ w.extractLsb' 8 4
        ++ 0#1).signExtend 32) ∧
      d.immB.getLsbD 0 = false ∧ d.getFunct5 = .error (.contractFault .funct5 .B 0b11000#5) ∧
      (s.answered w d).ports.illegal = 0#1 ∧ (s.answered w d).ports.format = 0b011#3 ∧
      d.getImm = .ok (s.answered w d).ports.imm ∧
      (s.answered w d).ports.immValid = 1#1 ∧ (s.answered w d).ports.funct5Valid = 0#1) ∧
  ∀ (s : State) (w : Word) (funct3 : BitVec 3) (rs1 rs2 : RegIdx) (imm : Word),
    (w, funct3, rs1, rs2, imm) ∈ [(0x00000063#32, 0#3, 0#5, 0#5, 0#32),
      (0xFE009CE3#32, 0b001#3, 1#5, 0#5, 0xFFFFFFF8#32), (0x80000063#32, 0#3, 0#5, 0#5, 0xFFFFF000#32),
      (0x7E62CFE3#32, 0b100#3, 5#5, 6#5, 0xFFE#32), (0x000000E3#32, 0#3, 0#5, 0#5, 0x800#32)] →
    ∃ d, AnsweredWith s w d ∧ d.funct3 = funct3 ∧ d.rs1 = rs1 ∧ d.rs2 = rs2 ∧ d.getImm = .ok imm

/-- Spec R83 and R84: every LUI and AUIPC word, whatever its other bits, is answered with the record and the outputs the rule
gives; and their examples and corner case. -/
def Obligations.UWordsAreAnsweredByTheirClassRule : Prop :=
  (∀ (s : State) (w : Word) (opcode : BitVec 5), opcode ∈ [0b01101#5, 0b00101#5] →
    w.extractLsb' 0 7 = opcode ++ 0b11#2 →
    ∃ d, AnsweredWith s w d ∧ d.format = .U ∧ d.opcode = opcode ∧ d.fullOpcode = opcode ++ 0b11#2 ∧
      d.rd = w.extractLsb' 7 5 ∧ d.funct3 = w.extractLsb' 12 3 ∧ d.funct7 = w.extractLsb' 25 7 ∧
      d.rs1 = w.extractLsb' 15 5 ∧ d.rs2 = w.extractLsb' 20 5 ∧ d.getImm = .ok (w &&& 0xFFFFF000#32) ∧
      d.getFunct5 = .error (.contractFault .funct5 .U opcode) ∧
      (s.answered w d).ports.illegal = 0#1 ∧ (s.answered w d).ports.format = 0b100#3 ∧
      (s.answered w d).ports.imm = w &&& 0xFFFFF000#32 ∧
      (s.answered w d).ports.immValid = 1#1 ∧ (s.answered w d).ports.funct5Valid = 0#1) ∧
  ∀ (s : State) (w : Word) (rd : RegIdx) (funct3 : BitVec 3) (rs1 rs2 : RegIdx) (imm : Word),
    (w, rd, funct3, rs1, rs2, imm) ∈ [(0x123452B7#32, 5#5, 0b101#3, 8#5, 3#5, 0x12345000#32),
      (0x80000037#32, 0#5, 0#3, 0#5, 0#5, 0x80000000#32), (0xFFFFF097#32, 1#5, 0b111#3, 31#5, 31#5, 0xFFFFF000#32)] →
    ∃ d, AnsweredWith s w d ∧ d.rd = rd ∧ d.funct3 = funct3 ∧ d.rs1 = rs1 ∧ d.rs2 = rs2 ∧ d.getImm = .ok imm

/-- Spec R85: every JAL word, whatever its other bits, is answered with the record and the outputs the rule gives, its offset
even; and its example and corner cases. -/
def Obligations.JalWordsAreAnsweredByTheirRule : Prop :=
  (∀ (s : State) (w : Word), w.extractLsb' 0 7 = 0x6F#7 →
    ∃ d, AnsweredWith s w d ∧ d.format = .J ∧ d.opcode = 0b11011#5 ∧ d.fullOpcode = 0x6F#7 ∧
      d.rd = w.extractLsb' 7 5 ∧ d.funct3 = w.extractLsb' 12 3 ∧ d.funct7 = w.extractLsb' 25 7 ∧
      d.rs1 = w.extractLsb' 15 5 ∧ d.rs2 = w.extractLsb' 20 5 ∧
      d.getImm = .ok ((w.extractLsb' 31 1 ++ w.extractLsb' 12 8 ++ w.extractLsb' 20 1 ++ w.extractLsb' 21 10
        ++ 0#1).signExtend 32) ∧
      d.immJ.getLsbD 0 = false ∧ d.getFunct5 = .error (.contractFault .funct5 .J 0b11011#5) ∧
      (s.answered w d).ports.illegal = 0#1 ∧ (s.answered w d).ports.format = 0b101#3 ∧
      d.getImm = .ok (s.answered w d).ports.imm ∧
      (s.answered w d).ports.immValid = 1#1 ∧ (s.answered w d).ports.funct5Valid = 0#1) ∧
  ∀ (s : State) (w : Word) (rd : RegIdx) (imm : Word),
    (w, rd, imm) ∈ [(0x001000EF#32, 1#5, 0x800#32), (0x8000006F#32, 0#5, 0xFFF00000#32),
      (0x7FFFF06F#32, 0#5, 0x000FFFFE#32), (0xFFFFF06F#32, 0#5, 0xFFFFFFFE#32)] →
    ∃ d, AnsweredWith s w d ∧ d.rd = rd ∧ d.getImm = .ok imm

/-! ### Honoured and broken contracts -/

/-- From every settled state whose environment honours the read contracts, the step goes on, to a settled state whose
environment still honours them. With no action left that step is the idle one, which is the model's choice
(notes/assumptions/2); that a read honours its contract only where a record exists is, too (notes/assumptions/11). -/
def Obligations.HonouredContractsAreKeptByEveryStep : Prop :=
  ∀ s : State, s.Settled → honoursContracts s.config.customSlot s.insn s.stimuli = true →
    ∃ t, step s = .next t ∧ t.Settled ∧ honoursContracts t.config.customSlot t.insn t.stimuli = true

/-- From every settled state whose environment honours the read contracts, every run goes on, however long, and stays
settled; so an environment that only presents words is never stopped. The steps after the last queued action are idle
ones, which are the model's choice (notes/assumptions/2); a read with no record counts as a broken contract by the
model's choice (notes/assumptions/11). -/
def Obligations.HonouredContractsNeverStopARun : Prop :=
  ∀ s : State, s.Settled → honoursContracts s.config.customSlot s.insn s.stimuli = true →
    ∀ n, ∃ t, run n s = .next t ∧ t.Settled

/-- From every settled state whose environment breaks a contract somewhere, the run over its actions stops: a broken read is
never passed over and never answered. That a contract fault (spec R87) ends the run is DEDUCED (notes/assumptions/10).
A read where no record exists is counted here as broken, though R87 does not call it a contract violation: that it
stops the run is the model's choice (notes/assumptions/11). -/
def Obligations.BrokenContractStopsTheRun : Prop :=
  ∀ s : State, s.Settled → honoursContracts s.config.customSlot s.insn s.stimuli = false →
    ¬∃ t, run s.stimuli.length s = .next t
end

