-- ==== Sys2Proof/Laws/Bits.lean ====
section
/-! SUPPORT. Slices, concatenations and sign extensions as arithmetic on natural numbers and integers: with these, a
statement about bit groups is linear arithmetic. -/

namespace Sys2Proof.Laws

/-- A concatenation as a number. -/
theorem append_toNat {a b : Nat} (x : BitVec a) (y : BitVec b) : (x ++ y).toNat = x.toNat * 2 ^ b + y.toNat := by
  rw [BitVec.toNat_append, ← Nat.shiftLeft_add_eq_or_of_lt y.isLt, Nat.shiftLeft_eq]

/-- A slice as a number. -/
theorem slice_toNat {n : Nat} (w : BitVec n) (lo len : Nat) :
    (w.extractLsb' lo len).toNat = w.toNat / 2 ^ lo % 2 ^ len := by
  rw [BitVec.extractLsb'_toNat, Nat.shiftRight_eq_div_pow]

/-! ### The calculus of slices -/

/-- A slice of a slice. -/
theorem slice_slice {n : Nat} (w : BitVec n) (a m b k : Nat) (h : b + k ≤ m) :
    (w.extractLsb' a m).extractLsb' b k = w.extractLsb' (a + b) k := by
  ext i hi
  simp only [BitVec.getElem_extractLsb', BitVec.getLsbD_extractLsb', show b + i < m by omega, decide_true,
    Bool.true_and, Nat.add_assoc]

/-- Adjacent slices join. -/
theorem slice_join {n : Nat} (w : BitVec n) (lo mid a b : Nat) (h : mid = lo + b) :
    w.extractLsb' mid a ++ w.extractLsb' lo b = w.extractLsb' lo (a + b) := by
  subst h
  ext i hi
  simp only [BitVec.getElem_append, BitVec.getElem_extractLsb']
  split_ifs
  · rfl
  · congr 1
    omega

/-- A slice of the upper part of a concatenation. -/
theorem slice_append_hi {a b : Nat} (x : BitVec a) (y : BitVec b) (lo len : Nat) (h : b ≤ lo) :
    (x ++ y).extractLsb' lo len = x.extractLsb' (lo - b) len :=
  BitVec.extractLsb'_append_eq_of_le h

/-- A slice of the lower part of a concatenation. -/
theorem slice_append_lo {a b : Nat} (x : BitVec a) (y : BitVec b) (lo len : Nat) (h : lo + len ≤ b) :
    (x ++ y).extractLsb' lo len = y.extractLsb' lo len :=
  BitVec.extractLsb'_append_eq_of_add_le h

/-- A slice of a sign extension below the sign. -/
theorem slice_sext {n : Nat} (v : BitVec n) (hn : n ≤ 32) (lo len : Nat) (h : lo + len ≤ n) :
    (sext v).extractLsb' lo len = v.extractLsb' lo len := by
  ext i hi
  rw [BitVec.getElem_extractLsb', BitVec.getElem_extractLsb', sext, BitVec.getLsbD_signExtend]
  simp [show lo + i < 32 by omega, show lo + i < n by omega]

/-! ### Words laid out from their groups -/

/-- A word laid out from its six groups, as a number. -/
theorem layout_toNat (funct7 : BitVec 7) (rs2 rs1 : RegIdx) (funct3 : BitVec 3) (rd : RegIdx) (full : BitVec 7) :
    (layout funct7 rs2 rs1 funct3 rd full).toNat = funct7.toNat * 2 ^ 25 + rs2.toNat * 2 ^ 20 + rs1.toNat * 2 ^ 15
      + funct3.toNat * 2 ^ 12 + rd.toNat * 2 ^ 7 + full.toNat := by
  rw [layout, append_toNat]
  simp only [append_toNat]
  omega

section Groups

variable (funct7 : BitVec 7) (rs2 rs1 : RegIdx) (funct3 : BitVec 3) (rd : RegIdx) (full : BitVec 7)

theorem funct7Of_layout : funct7Of (layout funct7 rs2 rs1 funct3 rd full) = funct7 := by
  apply BitVec.eq_of_toNat_eq
  rw [funct7Of, slice_toNat, layout_toNat]
  omega

theorem rs2Of_layout : rs2Of (layout funct7 rs2 rs1 funct3 rd full) = rs2 := by
  apply BitVec.eq_of_toNat_eq
  rw [rs2Of, slice_toNat, layout_toNat]
  omega

theorem rs1Of_layout : rs1Of (layout funct7 rs2 rs1 funct3 rd full) = rs1 := by
  apply BitVec.eq_of_toNat_eq
  rw [rs1Of, slice_toNat, layout_toNat]
  omega

theorem funct3Of_layout : funct3Of (layout funct7 rs2 rs1 funct3 rd full) = funct3 := by
  apply BitVec.eq_of_toNat_eq
  rw [funct3Of, slice_toNat, layout_toNat]
  omega

theorem rdOf_layout : rdOf (layout funct7 rs2 rs1 funct3 rd full) = rd := by
  apply BitVec.eq_of_toNat_eq
  rw [rdOf, slice_toNat, layout_toNat]
  omega

theorem fullOpcodeOf_layout : fullOpcodeOf (layout funct7 rs2 rs1 funct3 rd full) = full := by
  apply BitVec.eq_of_toNat_eq
  rw [fullOpcodeOf, slice_toNat, layout_toNat]
  omega

theorem opcodeOf_layout : opcodeOf (layout funct7 rs2 rs1 funct3 rd full) = full.extractLsb' 2 5 := by
  apply BitVec.eq_of_toNat_eq
  rw [opcodeOf, slice_toNat, slice_toNat, layout_toNat]
  omega

theorem widthMarkerOf_layout : widthMarkerOf (layout funct7 rs2 rs1 funct3 rd full) = full.extractLsb' 0 2 := by
  apply BitVec.eq_of_toNat_eq
  rw [widthMarkerOf, slice_toNat, slice_toNat, layout_toNat]
  omega

end Groups

/-- The opcode of a full opcode built from it. -/
theorem fullOpcode_opcode (slot : CustomSlot) (c : OpcodeClass) :
    (c.fullOpcode slot).extractLsb' 2 5 = c.opcode slot := by
  cases slot <;> cases c <;> decide

/-- The width marker of a full opcode built from an opcode. -/
theorem fullOpcode_widthMarker (slot : CustomSlot) (c : OpcodeClass) :
    (c.fullOpcode slot).extractLsb' 0 2 = 0b11#2 := by
  cases slot <;> cases c <;> decide

/-- Truncating a sign extension gives the value back. -/
theorem sext_setWidth {n : Nat} (v : BitVec n) (hn : n ≤ 32) : (sext v).setWidth n = v := by
  ext i hi
  rw [sext, BitVec.getElem_setWidth, BitVec.getLsbD_signExtend]
  simp [hi, show i < 32 by omega]

/-- The low bits of a sign extension, as a number. -/
theorem sext_toNat_mod {n : Nat} (v : BitVec n) (hn : n ≤ 32) : (sext v).toNat % 2 ^ n = v.toNat := by
  simpa [BitVec.toNat_setWidth] using congrArg BitVec.toNat (sext_setWidth v hn)

/-- A sign extension keeps the signed value. -/
theorem sext_toInt {n : Nat} (v : BitVec n) (hn : n ≤ 32) : (sext v).toInt = v.toInt :=
  BitVec.toInt_signExtend_of_le hn

/-- From its sign bit up, every bit of a sign extension is the sign bit (spec R10). -/
theorem sext_hi {n : Nat} (v : BitVec n) (h0 : 0 < n) (hn : n ≤ 32) (k : Nat) (hk : n - 1 ≤ k) (hk' : k < 32) :
    (sext v).getLsbD k = v.getLsbD (n - 1) := by
  rw [sext, BitVec.getLsbD_signExtend]
  by_cases h : k < n
  · obtain rfl : k = n - 1 := by omega
    simp [h, hk']
  · simp [h, hk', BitVec.msb_eq_getLsbD_last]

/-- Equal one-bit slices are equal bits. -/
theorem bit_of_slice {n m : Nat} (a : BitVec n) (b : BitVec m) (i j : Nat)
    (h : a.extractLsb' i 1 = b.extractLsb' j 1) : a.getLsbD i = b.getLsbD j := by
  simpa using congrArg (fun x => BitVec.getLsbD x 0) h

/-- A word whose signed value fits in `n` bits is the sign extension of its low `n` bits. -/
theorem sext_eq_of_inRange {n : Nat} (v : BitVec n) (imm : Word) (h0 : 0 < n) (hn : n ≤ 32)
    (hv : v.toNat = imm.toNat % 2 ^ n) (hlo : -2 ^ (n - 1) ≤ imm.toInt) (hhi : imm.toInt < 2 ^ (n - 1)) :
    sext v = imm := by
  obtain rfl : v = imm.setWidth n := BitVec.eq_of_toNat_eq (by rw [hv, BitVec.toNat_setWidth])
  apply BitVec.eq_of_toInt_eq
  have hmod : imm.toInt.bmod (2 ^ n) = (imm.toNat : Int).bmod (2 ^ n) := by
    rw [BitVec.toInt_eq_toNat_bmod]
    exact Int.bmod_bmod_of_dvd (pow_dvd_pow 2 hn)
  rw [sext, BitVec.toInt_signExtend_of_le hn, BitVec.toInt_setWidth, ← hmod]
  have hp : (2 : Nat) ^ n = 2 * 2 ^ (n - 1) := by
    rw [← pow_succ']
    congr 1
    omega
  have hpos : (0 : Int) < 2 ^ (n - 1) := by positivity
  refine Int.bmod_eq_of_le ?_ ?_ <;> rw [hp] <;> push_cast <;> omega

end Sys2Proof.Laws
end

