-- ==== Sys2Proof/Laws/Decode.lean ====
section
/-! SUPPORT. The opcode map and the decoder, each said once. -/

namespace Sys2Proof.Laws

/-- The opcode map sends an opcode to a class exactly when it is that class's opcode: no two rows overlap, for any
choice of the custom opcode (spec R21, R58). -/
theorem classOf_eq_some_iff (slot : CustomSlot) (opcode : BitVec 5) (c : OpcodeClass) :
    classOf slot opcode = some c ↔ c.opcode slot = opcode := by
  revert opcode
  cases slot <;> cases c <;> decide

theorem classOf_opcode (slot : CustomSlot) (c : OpcodeClass) : classOf slot (c.opcode slot) = some c :=
  (classOf_eq_some_iff slot _ c).mpr rfl

/-- A word with the width marker is not all zero (spec R56). -/
theorem ne_allZero_of_widthMarker {w : Word} (h : widthMarkerOf w = 0b11#2) : w ≠ 0x00000000#32 := by
  rintro rfl
  exact absurd h (by decide)

/-- A word whose opcode is mapped is not all ones (spec R56). -/
theorem ne_allOnes_of_classOf {slot : CustomSlot} {w : Word} {c : OpcodeClass} (h : classOf slot (opcodeOf w) = some c) :
    w ≠ 0xFFFFFFFF#32 := by
  rintro rfl
  cases slot <;> revert h <;> cases c <;> decide

/-- What the decoder accepts, and what it then answers. -/
theorem decode_eq_ok_iff (slot : CustomSlot) (w : Word) (i : Instr) :
    decode slot w = .ok i ↔
      widthMarkerOf w = 0b11#2 ∧ ∃ c, classOf slot (opcodeOf w) = some c ∧ i = instrOf c w := by
  unfold decode
  constructor
  · intro h
    split at h
    · cases h
    · split at h
      · cases h
      · rename_i hm
        split at h
        · cases h
        · rename_i c hc
          exact ⟨not_not.mp hm, c, hc, (Except.ok.inj h).symm⟩
  · rintro ⟨hm, c, hc, rfl⟩
    simp [ne_allZero_of_widthMarker hm, ne_allOnes_of_classOf hc, hm, hc]

/-- What the decoder answers otherwise: the error with the word itself (spec R98). -/
theorem decode_error_word {slot : CustomSlot} {w : Word} {e : IllegalInstruction} (h : decode slot w = .error e) :
    e = ⟨w⟩ := by
  unfold decode at h
  split at h
  · exact (Except.error.inj h).symm
  · split at h
    · exact (Except.error.inj h).symm
    · split at h
      · exact (Except.error.inj h).symm
      · cases h

end Sys2Proof.Laws
end

