-- ==== Sys2Proof/Laws/Immediates.lean ====
section
/-! SUPPORT. Where each group of a word's bits stands in its immediates (spec R50 to R54, R61). -/

namespace Sys2Proof.Laws

variable (w : Word)

theorem immIOf_hi : (immIOf w).extractLsb' 5 7 = funct7Of w := by
  rw [immIOf, slice_sext _ (by decide) _ _ (by decide), slice_slice _ _ _ _ _ (by decide)]
  rfl

theorem immIOf_lo : (immIOf w).extractLsb' 0 5 = rs2Of w := by
  rw [immIOf, slice_sext _ (by decide) _ _ (by decide), slice_slice _ _ _ _ _ (by decide)]
  rfl

theorem immSOf_hi : (immSOf w).extractLsb' 5 7 = funct7Of w := by
  rw [immSOf, slice_sext _ (by decide) _ _ (by decide), slice_append_hi _ _ _ _ (by decide),
    slice_slice _ _ _ _ _ (by decide)]
  rfl

theorem immSOf_lo : (immSOf w).extractLsb' 0 5 = rdOf w := by
  rw [immSOf, slice_sext _ (by decide) _ _ (by decide), slice_append_lo _ _ _ _ (by decide),
    slice_slice _ _ _ _ _ (by decide)]
  rfl

theorem immBOf_sign : (immBOf w).extractLsb' 12 1 = w.extractLsb' 31 1 := by
  rw [immBOf, slice_sext _ (by decide) _ _ (by decide), slice_append_hi _ _ _ _ (by decide),
    slice_append_hi _ _ _ _ (by decide), slice_append_hi _ _ _ _ (by decide), slice_append_hi _ _ _ _ (by decide),
    slice_slice _ _ _ _ _ (by decide)]

theorem immBOf_bit11 : (immBOf w).extractLsb' 11 1 = w.extractLsb' 7 1 := by
  rw [immBOf, slice_sext _ (by decide) _ _ (by decide), slice_append_hi _ _ _ _ (by decide),
    slice_append_hi _ _ _ _ (by decide), slice_append_hi _ _ _ _ (by decide), slice_append_lo _ _ _ _ (by decide),
    slice_slice _ _ _ _ _ (by decide)]

theorem immBOf_hi : (immBOf w).extractLsb' 5 6 = w.extractLsb' 25 6 := by
  rw [immBOf, slice_sext _ (by decide) _ _ (by decide), slice_append_hi _ _ _ _ (by decide),
    slice_append_hi _ _ _ _ (by decide), slice_append_lo _ _ _ _ (by decide), slice_slice _ _ _ _ _ (by decide)]

theorem immBOf_lo : (immBOf w).extractLsb' 1 4 = w.extractLsb' 8 4 := by
  rw [immBOf, slice_sext _ (by decide) _ _ (by decide), slice_append_hi _ _ _ _ (by decide),
    slice_append_lo _ _ _ _ (by decide), slice_slice _ _ _ _ _ (by decide)]

theorem immBOf_even : (immBOf w).extractLsb' 0 1 = 0#1 := by
  rw [immBOf, slice_sext _ (by decide) _ _ (by decide), slice_append_lo _ _ _ _ (by decide)]
  rfl

theorem immUOf_hi (lo len : Nat) (h : lo + len ≤ 20) :
    (immUOf w).extractLsb' (12 + lo) len = w.extractLsb' (12 + lo) len := by
  rw [immUOf, slice_append_hi _ _ _ _ (by omega), show 12 + lo - 12 = lo by omega, slice_slice _ _ _ _ _ h]

theorem immUOf_lo : (immUOf w).extractLsb' 0 12 = 0#12 := by
  rw [immUOf, slice_append_lo _ _ _ _ (by decide)]
  rfl

theorem immJOf_sign : (immJOf w).extractLsb' 20 1 = w.extractLsb' 31 1 := by
  rw [immJOf, slice_sext _ (by decide) _ _ (by decide), slice_append_hi _ _ _ _ (by decide),
    slice_append_hi _ _ _ _ (by decide), slice_append_hi _ _ _ _ (by decide), slice_append_hi _ _ _ _ (by decide),
    slice_slice _ _ _ _ _ (by decide)]

theorem immJOf_stay (lo len : Nat) (h : lo + len ≤ 8) :
    (immJOf w).extractLsb' (12 + lo) len = w.extractLsb' (12 + lo) len := by
  rw [immJOf, slice_sext _ (by decide) _ _ (by omega), slice_append_hi _ _ _ _ (by omega),
    slice_append_hi _ _ _ _ (by omega), slice_append_hi _ _ _ _ (by omega), slice_append_lo _ _ _ _ (by omega),
    slice_slice _ _ _ _ _ (by omega), show 12 + (12 + lo - 1 - 10 - 1) = 12 + lo by omega]

theorem immJOf_bit11 : (immJOf w).extractLsb' 11 1 = w.extractLsb' 20 1 := by
  rw [immJOf, slice_sext _ (by decide) _ _ (by decide), slice_append_hi _ _ _ _ (by decide),
    slice_append_hi _ _ _ _ (by decide), slice_append_lo _ _ _ _ (by decide), slice_slice _ _ _ _ _ (by decide)]

theorem immJOf_mid (lo len : Nat) (h : lo + len ≤ 10) :
    (immJOf w).extractLsb' (1 + lo) len = w.extractLsb' (21 + lo) len := by
  rw [immJOf, slice_sext _ (by decide) _ _ (by omega), slice_append_hi _ _ _ _ (by omega),
    slice_append_lo _ _ _ _ (by omega), slice_slice _ _ _ _ _ (by omega), show 1 + lo - 1 = lo by omega]

theorem immJOf_even : (immJOf w).extractLsb' 0 1 = 0#1 := by
  rw [immJOf, slice_sext _ (by decide) _ _ (by decide), slice_append_lo _ _ _ _ (by decide)]
  rfl

end Sys2Proof.Laws
end

