-- ==== Sys2Proof/Laws/State.lean ====
section
/-! SUPPORT. One lemma per field per update of the state, and the projections of records and ports that later proofs
use instead of unfolding. -/

namespace Sys2Proof.Machine

variable (s : State) (w : Word) (r : Except IllegalInstruction Decoded) (l : List Stimulus) (p : Sample)

@[simp] theorem withInsn_config : (s.withInsn w).config = s.config := rfl
@[simp] theorem withInsn_insn : (s.withInsn w).insn = w := rfl
@[simp] theorem withInsn_result : (s.withInsn w).result = s.result := rfl
@[simp] theorem withInsn_stimuli : (s.withInsn w).stimuli = s.stimuli := rfl
@[simp] theorem withInsn_sampled : (s.withInsn w).sampled = s.sampled := rfl

@[simp] theorem withResult_config : (s.withResult r).config = s.config := rfl
@[simp] theorem withResult_insn : (s.withResult r).insn = s.insn := rfl
@[simp] theorem withResult_result : (s.withResult r).result = r := rfl
@[simp] theorem withResult_stimuli : (s.withResult r).stimuli = s.stimuli := rfl
@[simp] theorem withResult_sampled : (s.withResult r).sampled = s.sampled := rfl

@[simp] theorem withStimuli_config : (s.withStimuli l).config = s.config := rfl
@[simp] theorem withStimuli_insn : (s.withStimuli l).insn = s.insn := rfl
@[simp] theorem withStimuli_result : (s.withStimuli l).result = s.result := rfl
@[simp] theorem withStimuli_stimuli : (s.withStimuli l).stimuli = l := rfl
@[simp] theorem withStimuli_sampled : (s.withStimuli l).sampled = s.sampled := rfl

@[simp] theorem withSampled_config : (s.withSampled p).config = s.config := rfl
@[simp] theorem withSampled_insn : (s.withSampled p).insn = s.insn := rfl
@[simp] theorem withSampled_result : (s.withSampled p).result = s.result := rfl
@[simp] theorem withSampled_stimuli : (s.withSampled p).stimuli = s.stimuli := rfl
@[simp] theorem withSampled_sampled : (s.withSampled p).sampled = some p := rfl

/-- A state already at a word and an answer is what writing them leaves. -/
theorem withInsn_withResult_self : (s.withInsn s.insn).withResult s.result = s := rfl

/-- The ports of an answered record. -/
theorem ports_of_ok {s : State} {d : Decoded} (h : s.result = .ok d) : s.ports = Ports.ofRecord s.config s.insn d := by
  simp [State.ports, h]

/-- The ports of an error answer. -/
theorem ports_of_error {s : State} {e : IllegalInstruction} (h : s.result = .error e) :
    s.ports = Ports.ofIllegal s.config s.insn := by
  simp [State.ports, h]

end Sys2Proof.Machine
end

