-- ==== Sys2Proof/Laws/Ops.lean ====
section
/-! SUPPORT. For each shared operation, and for a step, once: everything it can do. -/

namespace Sys2Proof.Machine

/-- A read is answered with an error exactly where its contract is broken, and the error names the read (spec R87). -/
theorem read_eq_error_iff (d : Decoded) (f : Field) (e : Fault) :
    d.read f = .error e ↔
      (f = .imm ∧ d.format = .R ∨ f = .funct5 ∧ d.opcode ≠ amoOpcode) ∧ e = .contractFault f d.format d.opcode := by
  cases f <;> simp only [Decoded.read, Decoded.getImm, Decoded.immOf, Decoded.getFunct5, reduceCtorEq, false_and,
    or_self, true_and, false_or, or_false]
  case funct5 =>
    split <;> rename_i h <;> simp [Except.map, h, eq_comm]
  case imm =>
    cases h : d.format <;> simp [Except.map, eq_comm]

/-- Of a record, a read is allowed exactly where its getter answers (spec R88, R90, R92). -/
theorem readAllowed_ok_iff (d : Decoded) (f : Field) : readAllowed (.ok d) f = true ↔ ∃ v, d.read f = .ok v := by
  cases h : d.read f with
  | error e =>
    rcases ((read_eq_error_iff _ _ _).mp h).1 with ⟨rfl, hb⟩ | ⟨rfl, hb⟩ <;> simp [readAllowed, hb]
  | ok v =>
    have hne : ¬(f = .imm ∧ d.format = .R ∨ f = .funct5 ∧ d.opcode ≠ amoOpcode) := fun hb => by
      have := (read_eq_error_iff d f _).mpr ⟨hb, rfl⟩
      simp [h] at this
    simp [readAllowed]
    tauto

/-- What answering with a record does: the answer is written, and nothing else. -/
theorem answerOk_eq_next_iff (d : Decoded) (s t : State) : answerOk d s = .next t ↔ t = s.withResult (.ok d) := by
  simp [answerOk, eq_comm]

/-- What raising the error does: the answer is written, and nothing else. -/
theorem raiseIllegalInstruction_eq_next_iff (w : Word) (s t : State) :
    raiseIllegalInstruction w s = .next t ↔ t = s.withResult (.error ⟨w⟩) := by
  simp [raiseIllegalInstruction, eq_comm]

/-- When a read goes on, there is a record, the getter has answered, and only the sample is written. -/
theorem readField_eq_next_iff (f : Field) (s t : State) :
    readField f s = .next t ↔ ∃ d v, s.result = .ok d ∧ d.read f = .ok v ∧ t = s.withSampled ⟨f, v⟩ := by
  unfold readField
  cases hr : s.result with
  | error e => simp
  | ok d => cases hv : d.read f <;> simp [hv, eq_comm]

/-- When a read faults, there is a record and the getter has faulted. -/
theorem readField_eq_fault_iff (f : Field) (s : State) (e : Fault) :
    readField f s = .fault e ↔ ∃ d, s.result = .ok d ∧ d.read f = .error e := by
  unfold readField
  cases hr : s.result with
  | error e => simp
  | ok d => cases hv : d.read f <;> simp [hv]

/-- When a read is refused, there is no record. -/
theorem readField_eq_refused_iff (f : Field) (s : State) (r : Refusal) :
    readField f s = .refused r ↔ (∃ e, s.result = .error e) ∧ r = .noRecord f := by
  unfold readField
  cases hr : s.result with
  | error e => simp [eq_comm]
  | ok d => cases hv : d.read f <;> simp [hv]

/-- Every instruction answers with a record. -/
theorem exec_answers (i : Instr) (s : State) : ∃ d, exec i s = answerOk d s := by
  cases i <;> exact ⟨_, rfl⟩

/-- What a presented word does: it is written on the input, an answer is written, and nothing else changes. -/
theorem settle_answers (w : Word) (s : State) : ∃ r, settle w s = .next ((s.withInsn w).withResult r) := by
  unfold settle
  split
  · obtain ⟨d, hd⟩ := exec_answers ‹_› (s.withInsn w)
    exact ⟨.ok d, by rw [hd]; rfl⟩
  · exact ⟨_, rfl⟩

/-- What a step can be: the input answered again, the next word answered, or the next read. -/
theorem step_cases (s : State) :
    (s.stimuli = [] ∧ step s = settle s.insn s) ∨
    (∃ w rest, s.stimuli = .present w :: rest ∧ step s = settle w (s.withStimuli rest)) ∨
    (∃ f rest, s.stimuli = .read f :: rest ∧ step s = readField f (s.withStimuli rest)) := by
  unfold step
  match h : s.stimuli with
  | [] => exact .inl ⟨rfl, by simp⟩
  | .present w :: rest => exact .inr (.inl ⟨w, rest, rfl, by simp [respond]⟩)
  | .read f :: rest => exact .inr (.inr ⟨f, rest, rfl, by simp [respond]⟩)

end Sys2Proof.Machine
end

