-- ==== Sys2Proof/Laws/PerInstr.lean ====
section
/-! SUPPORT. What holds of every instruction as syntax, one lemma per constructor: its word carries the width marker and
its class's opcode (spec R43, R58). -/

namespace Sys2Proof.Laws

/-- A word laid out under the full opcode of a class carries the marker and that class's opcode. -/
theorem layout_carries_class (slot : CustomSlot) (c : OpcodeClass) (funct7 : BitVec 7) (rs2 rs1 : RegIdx)
    (funct3 : BitVec 3) (rd : RegIdx) :
    widthMarkerOf (layout funct7 rs2 rs1 funct3 rd (c.fullOpcode slot)) = 0b11#2 ∧
      opcodeOf (layout funct7 rs2 rs1 funct3 rd (c.fullOpcode slot)) = c.opcode slot := by
  rw [widthMarkerOf_layout, opcodeOf_layout]
  exact ⟨fullOpcode_widthMarker slot c, fullOpcode_opcode slot c⟩

namespace EncodesItsClass

/-- The word of `i` carries the width marker and the opcode of `i`'s row. -/
def Statement (i : Instr) : Prop :=
  ∀ slot : CustomSlot, widthMarkerOf (encode slot i) = 0b11#2 ∧ opcodeOf (encode slot i) = i.opcodeClass.opcode slot

theorem op (funct7 : BitVec 7) (rs2 rs1 : RegIdx) (funct3 : BitVec 3) (rd : RegIdx) :
    Statement (.op funct7 rs2 rs1 funct3 rd) := fun slot => layout_carries_class slot .op ..

theorem custom (funct7 : BitVec 7) (rs2 rs1 : RegIdx) (funct3 : BitVec 3) (rd : RegIdx) :
    Statement (.custom funct7 rs2 rs1 funct3 rd) := fun slot => layout_carries_class slot .custom ..

theorem amo (funct5 : BitVec 5) (low : BitVec 2) (rs2 rs1 : RegIdx) (funct3 : BitVec 3) (rd : RegIdx) :
    Statement (.amo funct5 low rs2 rs1 funct3 rd) := fun slot => layout_carries_class slot .amo ..

theorem load (imm : Word) (rs1 : RegIdx) (funct3 : BitVec 3) (rd : RegIdx) :
    Statement (.load imm rs1 funct3 rd) := fun slot => layout_carries_class slot .load ..

theorem opImm (imm : Word) (rs1 : RegIdx) (funct3 : BitVec 3) (rd : RegIdx) :
    Statement (.opImm imm rs1 funct3 rd) := fun slot => layout_carries_class slot .opImm ..

theorem jalr (imm : Word) (rs1 : RegIdx) (funct3 : BitVec 3) (rd : RegIdx) :
    Statement (.jalr imm rs1 funct3 rd) := fun slot => layout_carries_class slot .jalr ..

theorem system (imm : Word) (rs1 : RegIdx) (funct3 : BitVec 3) (rd : RegIdx) :
    Statement (.system imm rs1 funct3 rd) := fun slot => layout_carries_class slot .system ..

theorem miscMem (imm : Word) (rs1 : RegIdx) (funct3 : BitVec 3) (rd : RegIdx) :
    Statement (.miscMem imm rs1 funct3 rd) := fun slot => layout_carries_class slot .miscMem ..

theorem store (imm : Word) (rs2 rs1 : RegIdx) (funct3 : BitVec 3) :
    Statement (.store imm rs2 rs1 funct3) := fun slot => layout_carries_class slot .store ..

theorem branch (imm : Word) (rs2 rs1 : RegIdx) (funct3 : BitVec 3) :
    Statement (.branch imm rs2 rs1 funct3) := fun slot => layout_carries_class slot .branch ..

theorem lui (imm : Word) (rd : RegIdx) : Statement (.lui imm rd) := fun slot => layout_carries_class slot .lui ..

theorem auipc (imm : Word) (rd : RegIdx) : Statement (.auipc imm rd) := fun slot => layout_carries_class slot .auipc ..

theorem jal (imm : Word) (rd : RegIdx) : Statement (.jal imm rd) := fun slot => layout_carries_class slot .jal ..

end EncodesItsClass

end Sys2Proof.Laws
end

