-- ==== Sys2Proof/Laws/Run.lean ====
section
/-! SUPPORT. A run, one step at a time. -/

namespace Sys2Proof.Machine

/-- A run of the host's machine takes its first step first. -/
theorem core_run_succ (M : Host.Core) (n : Nat) (s : M.State) :
    M.run (n + 1) s =
      match M.step s with
      | .next t => M.run n t
      | .fault e => .fault e
      | .refused r => .refused r := by
  cases h : M.step s <;> simp only [Host.Core.run, h]

theorem run_zero (s : State) : run 0 s = .next s := rfl

/-- A run whose first step goes on is the rest of the run. -/
theorem run_of_next {s t : State} (n : Nat) (h : step s = .next t) : run (n + 1) s = run n t := by
  have h' : Sys2Proof.core.step s = .next t := h
  refine (core_run_succ Sys2Proof.core n s).trans ?_
  rw [h']
  rfl

/-- A run whose first step faults ends there. -/
theorem run_of_fault {s : State} {e : Fault} (n : Nat) (h : step s = .fault e) : run (n + 1) s = .fault e := by
  have h' : Sys2Proof.core.step s = .fault e := h
  refine (core_run_succ Sys2Proof.core n s).trans ?_
  rw [h']
  rfl

/-- A run whose first step is refused ends there. -/
theorem run_of_refused {s : State} {r : Refusal} (n : Nat) (h : step s = .refused r) : run (n + 1) s = .refused r := by
  have h' : Sys2Proof.core.step s = .refused r := h
  refine (core_run_succ Sys2Proof.core n s).trans ?_
  rw [h']
  rfl

end Sys2Proof.Machine
end

