-- ==== Sys2Proof/Tests/Slice0.lean ====
section
/-! SUPPORT. Tests: ill-formed terms refused, words of 95_test_vectors.md decoded and answered, one step each; and for
every obligation with hypotheses a witness that meets them. Expected values are the spec's (tables W, V and P of
95_test_vectors.md) unless a comment says otherwise. -/

open Sys2Proof Sys2Proof.Machine

namespace Sys2Proof.Tests

/-! ### WellFormed: one ill-formed term for each check -/

/-- R50: 2048 is no I immediate. -/
theorem test_wf_immI_too_large : ¬(Instr.load 0x800#32 0#5 0#3 0#5).WellFormed := by decide

theorem test_wf_opImm_too_small : ¬(Instr.opImm 0xFFFFF7FF#32 0#5 0#3 0#5).WellFormed := by decide

theorem test_wf_jalr_too_large : ¬(Instr.jalr 0x80000000#32 0#5 0#3 0#5).WellFormed := by decide

/-- R79: CSR address 0xC00 stands as its sign extension, never as 3072. -/
theorem test_wf_system_unextended : ¬(Instr.system 0xC00#32 0#5 0b010#3 5#5).WellFormed := by decide

theorem test_wf_miscMem_unextended : ¬(Instr.miscMem 0x833#32 0#5 0#3 0#5).WellFormed := by decide

/-- R51: 2048 is no S immediate. -/
theorem test_wf_immS_too_large : ¬(Instr.store 0x800#32 0#5 0#5 0#3).WellFormed := by decide

/-- R52: 4096 is no B immediate. -/
theorem test_wf_immB_too_large : ¬(Instr.branch 0x1000#32 0#5 0#5 0#3).WellFormed := by decide

/-- R52: a B immediate is even. -/
theorem test_wf_immB_odd : ¬(Instr.branch 0x3#32 0#5 0#5 0#3).WellFormed := by decide

/-- R53: the low 12 bits of a U immediate are 0. -/
theorem test_wf_immU_low_bits : ¬(Instr.lui 0x12345001#32 5#5).WellFormed := by decide

theorem test_wf_auipc_low_bits : ¬(Instr.auipc 0x800#32 5#5).WellFormed := by decide

/-- R54: 1048576 is no J immediate. -/
theorem test_wf_immJ_too_large : ¬(Instr.jal 0x100000#32 0#5).WellFormed := by decide

/-- R54: a J immediate is even. -/
theorem test_wf_immJ_odd : ¬(Instr.jal 0xFFFFFFFF#32 0#5).WellFormed := by decide

/-! ### Decoding: a word of each class, from the tables V3 to V8 -/

/-- V3: `sub x5, x6, x7`: 0100000 00111 00110 000 00101 01100 11. -/
theorem test_op_decodes :
    decode .custom0 0b01000000011100110000001010110011#32 = .ok (.op 0b0100000#7 7#5 6#5 0#3 5#5) := by decide

theorem test_custom_decodes :
    decode .custom0 0b11111110010000011010000010001011#32 = .ok (.custom 0b1111111#7 4#5 3#5 0b010#3 1#5) := by decide

theorem test_amo_decodes :
    decode .custom0 0b00010100000001011010010100101111#32 = .ok (.amo 0b00010#5 0b10#2 0#5 11#5 0b010#3 10#5) := by
  decide

/-- V4: `lw x5, -4(x2)`: 111111111100 00010 010 00101 00000 11. -/
theorem test_load_decodes :
    decode .custom0 0b11111111110000010010001010000011#32 = .ok (.load 0xFFFFFFFC#32 2#5 0b010#3 5#5) := by decide

theorem test_opImm_decodes :
    decode .custom0 0b01000000001101011101010100010011#32 = .ok (.opImm 0x403#32 11#5 0b101#3 10#5) := by decide

theorem test_jalr_decodes :
    decode .custom0 0b11111111111100101000000011100111#32 = .ok (.jalr 0xFFFFFFFF#32 5#5 0#3 1#5) := by decide

theorem test_system_decodes :
    decode .custom0 0b11000000000000000010001011110011#32 = .ok (.system 0xFFFFFC00#32 0#5 0b010#3 5#5) := by decide

theorem test_miscMem_decodes :
    decode .custom0 0b10000011001100000000000000001111#32 = .ok (.miscMem 0xFFFFF833#32 0#5 0#3 0#5) := by decide

/-- V5: `sw x1, -8(x2)`: 1111111 00001 00010 010 11000 01000 11. -/
theorem test_store_decodes :
    decode .custom0 0b11111110000100010010110000100011#32 = .ok (.store 0xFFFFFFF8#32 1#5 2#5 0b010#3) := by decide

/-- V6: `bne x1, x0, -8`: 1 111111 00000 00001 001 1100 1 11000 11. -/
theorem test_branch_decodes :
    decode .custom0 0b11111110000000001001110011100011#32 = .ok (.branch 0xFFFFFFF8#32 0#5 1#5 0b001#3) := by decide

/-- V7: `lui x5, 0x12345`: 00010010001101000101 00101 01101 11. -/
theorem test_lui_decodes :
    decode .custom0 0b00010010001101000101001010110111#32 = .ok (.lui 0x12345000#32 5#5) := by decide

theorem test_auipc_decodes :
    decode .custom0 0b11111111111111111111000010010111#32 = .ok (.auipc 0xFFFFF000#32 1#5) := by decide

/-- V8: `jal x1, 2048`: 0 0000000000 1 00000000 00001 11011 11. -/
theorem test_jal_decodes :
    decode .custom0 0b00000000000100000000000011101111#32 = .ok (.jal 0x800#32 1#5) := by decide

/-- R74, C2: the other three custom slots, each under its own parameter and under no other. -/
theorem test_custom_slots :
    decode .custom1 0x0000002B#32 = .ok (.custom 0#7 0#5 0#5 0#3 0#5) ∧
    decode .custom2 0x0000005B#32 = .ok (.custom 0#7 0#5 0#5 0#3 0#5) ∧
    decode .custom3 0x0000007B#32 = .ok (.custom 0#7 0#5 0#5 0#3 0#5) ∧
    decode .custom0 0x0000002B#32 = .error ⟨0x0000002B#32⟩ ∧
    decode .custom1 0x0000000B#32 = .error ⟨0x0000000B#32⟩ := by decide

/-- V2, but for the unmapped opcodes. -/
theorem test_illegal_words :
    [0x00000000#32, 0xFFFFFFFF#32, 0x00000001#32, 0x00000002#32, 0x00000092#32, 0x00004501#32, 0xFFFFFFFC#32,
      0xFFFFFFFE#32, 0x00100030#32].all (fun w => decode .custom0 w = .error ⟨w⟩) = true := by decide

/-- The words B of V1 for eight opcode values, from the first word on. -/
def sweepB (first : Nat) : List (Option Format) :=
  [0, 4, 8, 12, 16, 20, 24, 28].map fun k =>
    match decodeRecord .custom0 (BitVec.ofNat 32 (first + k)) with
    | .ok d => some d.format
    | .error _ => none

/-- V1, column B: the format of every opcode value from 00000 up, bits 31:7 all 1. -/
theorem test_opcode_sweep_0 :
    sweepB 0xFFFFFF83 = [some .I, none, some .R, some .I, some .I, some .U, none, none] := by decide

theorem test_opcode_sweep_1 :
    sweepB 0xFFFFFFA3 = [some .S, none, none, some .R, some .R, some .U, none, none] := by decide

theorem test_opcode_sweep_2 : sweepB 0xFFFFFFC3 = [none, none, none, none, none, none, none, none] := by decide

theorem test_opcode_sweep_3 :
    sweepB 0xFFFFFFE3 = [some .B, some .I, none, some .J, some .I, none, none, none] := by decide

/-- R99, V2: several causes may hold of one word. -/
theorem test_illegal_causes :
    illegalCauses .custom0 0x00000000#32 = [.allZero, .widthMarker] ∧
    illegalCauses .custom0 0xFFFFFFFF#32 = [.allOnes, .unrecognizedOpcode] ∧
    illegalCauses .custom0 0x0000001B#32 = [.unrecognizedOpcode] ∧
    illegalCauses .custom0 0x00000093#32 = [] := by decide

/-- P4: the producer's memory image as words. -/
theorem test_image_words :
    wordsOfImage [0x93#8, 0x00#8, 0x50#8, 0x00#8, 0x01#8, 0x45#8, 0x13#8, 0x05#8, 0x13#8, 0x01#8, 0x01#8, 0xFE#8] =
      [0x00500093#32, 0x05134501#32, 0xFE010113#32] := by decide

/-- P4, first word; and three bytes make none (notes/assumptions/13). -/
theorem test_decodeBytes :
    decodeBytes .custom0 [0x93#8, 0x00#8, 0x50#8, 0x00#8, 0x01#8] = .ok (.opImm 5#32 0#5 0#3 1#5, [0x01#8]) ∧
    decodeBytes .custom0 [0x01#8, 0x45#8, 0x13#8, 0x05#8] = .error (.illegalInstruction ⟨0x05134501#32⟩) ∧
    decodeBytes .custom0 [0x93#8, 0x00#8, 0x50#8] = .error (.truncated [0x93#8, 0x00#8, 0x50#8]) := by decide

/-! ### Answers: one step from reset -/

/-- What the block answers, from reset, for a word. -/
def answer (w : Word) : Option (Except IllegalInstruction Decoded) :=
  match step (State.reset.presenting w) with
  | .next t => some t.result
  | _ => none

/-- One line of the tables V3 to V8: format, opcode, full_opcode, f3, f7, rd, rs1, rs2, imm, funct5. -/
structure Line where
  format : Format
  opcode : BitVec 5
  full : BitVec 7
  f3 : BitVec 3
  f7 : BitVec 7
  rd : RegIdx
  rs1 : RegIdx
  rs2 : RegIdx
  imm : Except Fault Word
  f5 : Except Fault (BitVec 5)
deriving DecidableEq

/-- The line of a word's record, read through the getters. -/
def line (w : Word) : Option Line :=
  match answer w with
  | some (.ok d) =>
    some ⟨d.format, d.opcode, d.fullOpcode, d.funct3, d.funct7, d.rd, d.rs1, d.rs2, d.getImm, d.getFunct5⟩
  | _ => none

/-- The contract faults of R88 and R90. -/
def noImm (opcode : BitVec 5) : Except Fault Word := .error (.contractFault .imm .R opcode)
def noF5 (format : Format) (opcode : BitVec 5) : Except Fault (BitVec 5) :=
  .error (.contractFault .funct5 format opcode)

/-- V3: all fields 1, a reserved funct7. -/
theorem test_op_answers : line 0xFFFFFFB3#32 =
    some ⟨.R, 0b01100#5, 0x33#7, 7#3, 0x7F#7, 31#5, 31#5, 31#5, noImm 0b01100#5, noF5 .R 0b01100#5⟩ := by decide

theorem test_custom_answers : line 0xFE41A08B#32 =
    some ⟨.R, 0b00010#5, 0x0B#7, 2#3, 0x7F#7, 1#5, 3#5, 4#5, noImm 0b00010#5, noF5 .R 0b00010#5⟩ := by decide

theorem test_amo_answers : line 0x06C5A52F#32 =
    some ⟨.R, 0b01011#5, 0x2F#7, 2#3, 0b0000011#7, 10#5, 11#5, 12#5, noImm 0b01011#5, .ok 0#5⟩ := by decide

/-- V4: a reserved funct3, the largest immediate. -/
theorem test_load_answers : line 0x7FFFF003#32 =
    some ⟨.I, 0b00000#5, 0x03#7, 7#3, 0b0111111#7, 0#5, 31#5, 31#5, .ok 0x7FF#32, noF5 .I 0b00000#5⟩ := by decide

theorem test_opImm_answers : line 0x80000513#32 =
    some ⟨.I, 0b00100#5, 0x13#7, 0#3, 0b1000000#7, 10#5, 0#5, 0#5, .ok 0xFFFFF800#32, noF5 .I 0b00100#5⟩ := by decide

theorem test_jalr_answers : line 0x00008067#32 =
    some ⟨.I, 0b11001#5, 0x67#7, 0#3, 0#7, 0#5, 1#5, 0#5, .ok 0#32, noF5 .I 0b11001#5⟩ := by decide

/-- V4: `csrrwi x0, 0x305, 31`: rs1 carries what a consumer reads as a 5-bit immediate. -/
theorem test_system_answers : line 0x305FD073#32 =
    some ⟨.I, 0b11100#5, 0x73#7, 5#3, 0b0011000#7, 0#5, 31#5, 5#5, .ok 0x305#32, noF5 .I 0b11100#5⟩ := by decide

theorem test_miscMem_answers : line 0x0FF0000F#32 =
    some ⟨.I, 0b00011#5, 0x0F#7, 0#3, 0b0000111#7, 0#5, 0#5, 31#5, .ok 0xFF#32, noF5 .I 0b00011#5⟩ := by decide

theorem test_store_answers : line 0x7EB50FA3#32 =
    some ⟨.S, 0b01000#5, 0x23#7, 0#3, 0b0111111#7, 31#5, 10#5, 11#5, .ok 0x7FF#32, noF5 .S 0b01000#5⟩ := by decide

/-- V6: only `insn[7]` set among the immediate's bits: position 11. -/
theorem test_branch_answers : line 0x000000E3#32 =
    some ⟨.B, 0b11000#5, 0x63#7, 0#3, 0#7, 1#5, 0#5, 0#5, .ok 0x800#32, noF5 .B 0b11000#5⟩ := by decide

/-- V7: the low 12 bits of the word are all 1 but the immediate's are 0. -/
theorem test_lui_answers : line 0xFFFFFFB7#32 =
    some ⟨.U, 0b01101#5, 0x37#7, 7#3, 0x7F#7, 31#5, 31#5, 31#5, .ok 0xFFFFF000#32, noF5 .U 0b01101#5⟩ := by decide

theorem test_auipc_answers : line 0x00000017#32 =
    some ⟨.U, 0b00101#5, 0x17#7, 0#3, 0#7, 0#5, 0#5, 0#5, .ok 0#32, noF5 .U 0b00101#5⟩ := by decide

theorem test_jal_answers : line 0x7FFFF06F#32 =
    some ⟨.J, 0b11011#5, 0x6F#7, 7#3, 0b0111111#7, 0#5, 31#5, 31#5, .ok 0xFFFFE#32, noF5 .J 0b11011#5⟩ := by decide

/-- P3, word 6: padding is answered with the error, which carries the word. -/
theorem test_padding_is_illegal : answer 0x00000000#32 = some (.error ⟨0x00000000#32⟩) := by decide

/-! ### Reads: one step after a word's answer -/

/-- The state in which the block has answered the word, from reset, with its record (R67). -/
def after (f : Format) (w : Word) : State := State.reset.answered w (Decoded.ofWord f w)

/-- What a read of a field after a word gives. -/
def readAfter (f : Format) (w : Word) (g : Field) : Option (Except Fault FieldValue) :=
  match step ((after f w).reading g) with
  | .next t => t.sampled.map fun p => .ok p.value
  | .fault e => some (.error e)
  | .refused _ => none

/-- V9, the rows with a record. -/
theorem test_contract_faults :
    readAfter .R 0x002081B3#32 .imm = some (.error (.contractFault .imm .R 0b01100#5)) ∧
    readAfter .R 0xFE41A08B#32 .imm = some (.error (.contractFault .imm .R 0b00010#5)) ∧
    readAfter .R 0x06C5A52F#32 .imm = some (.error (.contractFault .imm .R 0b01011#5)) ∧
    readAfter .R 0x06C5A52F#32 .funct5 = some (.ok (.bits5 0#5)) ∧
    readAfter .R 0x002081B3#32 .funct5 = some (.error (.contractFault .funct5 .R 0b01100#5)) ∧
    readAfter .I 0x00000093#32 .funct5 = some (.error (.contractFault .funct5 .I 0b00100#5)) ∧
    readAfter .I 0x00000093#32 .rs2 = some (.ok (.bits5 0#5)) ∧
    readAfter .U 0x123452B7#32 .rs2 = some (.ok (.bits5 3#5)) := by decide

/-- V9, last row: no record exists, so the model refuses the read (notes/assumptions/11). -/
theorem test_read_without_record : step (State.reset.reading .rd) = .refused (.noRecord .rd) := rfl

/-- R24: the ports of an AMO word, but for `imm`, which is free. -/
theorem test_ports_of_amo :
    let p := (after .R 0x06C5A52F#32).ports
    p.illegal = 0#1 ∧ p.format = 0b000#3 ∧ p.funct5 = 0#5 ∧ p.funct5Valid = 1#1 ∧ p.immValid = 0#1 := by decide

/-- R24, R26: the ports of a LUI word; the U code is 0b100. -/
theorem test_ports_of_lui :
    let p := (after .U 0x123452B7#32).ports
    p.illegal = 0#1 ∧ p.format = 0b100#3 ∧ p.imm = 0x12345000#32 ∧ p.immValid = 1#1 ∧ p.funct5Valid = 0#1 := by decide

/-- R96: what the diagnostic rendering of W2 selects. -/
theorem test_diagnostic :
    (Decoded.ofWord .I 0xFE010113#32).diagnostic =
      .ok [⟨.opcode, .bits5 0b00100#5⟩, ⟨.fullOpcode, .bits7 0x13#7⟩, ⟨.funct3, .bits3 0#3⟩, ⟨.rd, .bits5 2#5⟩,
        ⟨.rs1, .bits5 2#5⟩, ⟨.imm, .word 0xFFFFFFE0#32⟩] := by decide

/-! ### The table's words -/

/-- The `match` word of every row of the opcode table, in its order. -/
def matchWords : List Nat :=
  [0x33, 0x0B, 0x2F, 0x03, 0x13, 0x67, 0x73, 0x0F, 0x23, 0x63, 0x37, 0x17, 0x6F]

theorem test_decodeTableWord :
    matchWords.map (fun w => (decodeTableWord 32 w).map Instr.opcodeClass) = OpcodeClass.all.map some := by decide

/-- Whether a word placed by `withFetchWord` is the first one run from reset: the decoded instruction's meaning, with the
word on the input. -/
def runsFirst (w : Nat) : Bool :=
  match decodeTableWord 32 w with
  | none => false
  | some i =>
    match step (State.reset.withFetchWord 32 w), exec i (State.reset.withInsn (BitVec.ofNat 32 w)) with
    | .next t, .next u => t = u
    | _, _ => false

theorem test_withFetchWord : matchWords.all runsFirst = true := by decide

/-! ### Witnesses: for each obligation with hypotheses, a state and operands that meet them -/

/-- A machine built with another custom opcode, holding another word's answer and a read a consumer made before. -/
def other : State :=
  { config := ⟨.custom1⟩, insn := 0x0000002B#32, result := .ok (Decoded.ofWord .R 0x0000002B#32), stimuli := [],
    sampled := some ⟨.rd, .bits5 7#5⟩ }

/-- A word to which the third cause alone applies, one for the fourth, and a word of the second. -/
theorem witness_EveryCauseGivesTheSameError :
    illegalCauses State.reset.config.customSlot 0x00004501#32 = [.widthMarker] ∧
    illegalCauses other.config.customSlot 0x0000000B#32 = [.unrecognizedOpcode] ∧
    step (other.presenting 0xFFFFFFFF#32) =
      .next ((other.withInsn 0xFFFFFFFF#32).withResult (.error ⟨0xFFFFFFFF#32⟩)) := ⟨by decide, by decide, rfl⟩

/-- The record of a word answered from reset. -/
theorem answered_after (f : Format) (w : Word) (h : decodeRecord .custom0 w = .ok (Decoded.ofWord f w)) :
    (after f w).Settled ∧ (after f w).result = .ok (Decoded.ofWord f w) := ⟨h.symm, rfl⟩

theorem witness_AcceptedExactlyWhenTheThreeChecksPass :
    (∃ d, AnsweredWith State.reset 0x00000093#32 d) ∧
    (∃ d, AnsweredWith other 0x0000002B#32 d) ∧
    ¬∃ d, AnsweredWith State.reset 0xFFFFFFFF#32 d := by
  refine ⟨⟨Decoded.ofWord .I 0x00000093#32, rfl⟩, ⟨Decoded.ofWord .R 0x0000002B#32, rfl⟩, ?_⟩
  rintro ⟨d, h⟩
  have h' : answer 0xFFFFFFFF#32 = some (.ok d) := by
    unfold answer
    rw [h]
    rfl
  exact absurd (Option.some.inj ((show answer 0xFFFFFFFF#32 = some (.error ⟨0xFFFFFFFF#32⟩) by decide).symm.trans h'))
    (by simp)

theorem witness_IllegalWordIsAnsweredWithTheErrorAlone :
    legal State.reset.config.customSlot 0x00000092#32 = false ∧
    step (State.reset.presenting 0x00000092#32) =
      .next ((State.reset.withInsn 0x00000092#32).withResult (.error ⟨0x00000092#32⟩)) ∧
    legal State.reset.config.customSlot 0x00000093#32 = true ∧
    step (State.reset.presenting 0x00000093#32) = .next (after .I 0x00000093#32) := ⟨by decide, rfl, by decide, rfl⟩

theorem witness_MarkerAndOpcodeAloneDecide :
    legal State.reset.config.customSlot 0x00000003#32 = true ∧
    AnsweredWith State.reset 0x00000003#32 (Decoded.ofWord .I 0x00000003#32) := ⟨by decide, rfl⟩

theorem witness_OtherTwentyFiveBitsNeverDecideLegality :
    (0x00000023#32).extractLsb' 0 2 = 0b11#2 ∧
    (0x00000023#32).extractLsb' 0 7 = (0xFFFFFFA3#32).extractLsb' 0 7 ∧
    (formatOf State.reset.config.customSlot ((0x00000023#32).extractLsb' 2 5)).isSome := by decide

/-- Each clause, on an opcode of the nineteen and on a custom slot. -/
theorem witness_UnmappedOpcodesAreIllegal :
    (0x00000007#32).extractLsb' 0 2 = 0b11#2 ∧ (0x0000000B#32).extractLsb' 0 2 = 0b11#2 ∧
    (0x0000002B#32).extractLsb' 0 2 = 0b11#2 ∧
    State.reset.config = Config.default ∧ other.config ≠ Config.default ∧
    step (State.reset.presenting 0x00000007#32) =
      .next ((State.reset.withInsn 0x00000007#32).withResult (.error ⟨0x00000007#32⟩)) ∧
    step (other.presenting 0x0000000B#32) =
      .next ((other.withInsn 0x0000000B#32).withResult (.error ⟨0x0000000B#32⟩)) :=
  ⟨by decide, by decide, by decide, rfl, by decide, rfl, rfl⟩

theorem witness_AnswersDependOnTheWordAlone :
    State.reset.config = (after .I 0x00000093#32).config ∧ State.reset ≠ after .I 0x00000093#32 := ⟨rfl, by decide⟩

theorem witness_OutputsDependOnTheWordAlone :
    (State.reset.presenting 0x00000093#32).Settled ∧ State.reset.Settled ∧
    (State.reset.presenting 0x00000093#32).config = State.reset.config ∧
    (State.reset.presenting 0x00000093#32).insn = State.reset.insn ∧
    State.reset.presenting 0x00000093#32 ≠ State.reset := ⟨rfl, rfl, rfl, rfl, by decide⟩

theorem witness_EarlierWordsDoNotChangeALaterAnswer : other.stimuli = [] := rfl

theorem witness_IdleBlockHoldsItsAnswer : other.stimuli = [] ∧ other.Settled := ⟨rfl, rfl⟩

theorem witness_RecordDeterminesTheWord :
    AnsweredWith State.reset 0xFE112C23#32 (Decoded.ofWord .S 0xFE112C23#32) := rfl

theorem witness_EveryStepKeepsTheAnswerSettled :
    State.reset.Settled ∧ (State.reset.presenting 0x00000093#32).Settled ∧
    step (State.reset.presenting 0x00000093#32) = .next (after .I 0x00000093#32) := ⟨rfl, rfl, rfl⟩

theorem witness_NoStepChangesTheBuildParameter :
    step (other.presenting 0x00000093#32) = .next (other.answered 0x00000093#32 (Decoded.ofWord .I 0x00000093#32)) := rfl

theorem witness_RecordsFormatFollowsItsOpcode :
    (after .I 0x00000093#32).Settled ∧ (after .I 0x00000093#32).result = .ok (Decoded.ofWord .I 0x00000093#32) ∧
    (after .I 0xFE010113#32).Settled ∧ (after .I 0xFE010113#32).config = (after .I 0x00000093#32).config ∧
    (after .I 0xFE010113#32).result = .ok (Decoded.ofWord .I 0xFE010113#32) ∧
    (Decoded.ofWord .I 0xFE010113#32).opcode = (Decoded.ofWord .I 0x00000093#32).opcode :=
  ⟨rfl, rfl, rfl, rfl, rfl, by decide⟩

/-- A legal word of each format, for RawGettersReturnTheWordsBits, PortsOfALegalWord, and the reads of `imm` and `funct5`:
both AMO and not, and each format. -/
theorem witness_legal_words :
    [0x407302B3#32, 0xFE41A08B#32, 0x06C5A52F#32, 0xFFC12283#32, 0x7EB50FA3#32, 0x7E62CFE3#32, 0x123452B7#32,
      0x7FFFF06F#32].all (legal State.reset.config.customSlot) = true := by decide

/-- Words at both ends of each immediate's range (V10), for the five statements on immediates. -/
theorem witness_immediates :
    [0x80000013#32, 0x7FF00013#32, 0x80000023#32, 0x7E000FA3#32, 0x80000063#32, 0x7E000FE3#32, 0x8000006F#32,
      0x7FFFF06F#32, 0x80000037#32, 0x7FFFF037#32].all (legal State.reset.config.customSlot) = true ∧
    (immIOf 0x80000013#32).toInt = -2048 ∧ (immIOf 0x7FF00013#32).toInt = 2047 ∧
    (immSOf 0x80000023#32).toInt = -2048 ∧ (immSOf 0x7E000FA3#32).toInt = 2047 ∧
    (immBOf 0x80000063#32).toInt = -4096 ∧ (immBOf 0x7E000FE3#32).toInt = 4094 ∧
    (immJOf 0x8000006F#32).toInt = -1048576 ∧ (immJOf 0x7FFFF06F#32).toInt = 1048574 ∧
    immUOf 0x80000037#32 = 0x80000000#32 ∧ immUOf 0x7FFFF037#32 = 0x7FFFF000#32 := by decide

/-- Both kinds of broken contract, each with the fault it gives. -/
theorem witness_StepFaultsExactlyOnABrokenContract :
    ((after .R 0x002081B3#32).reading .imm).stimuli = [.read .imm] ∧
    step ((after .R 0x002081B3#32).reading .imm) = .fault (.contractFault .imm .R 0b01100#5) ∧
    step ((after .I 0x00000093#32).reading .funct5) = .fault (.contractFault .funct5 .I 0b00100#5) := ⟨rfl, rfl, rfl⟩

theorem witness_StepRefusesExactlyAReadWithoutARecord :
    (State.reset.reading .imm).stimuli = [.read .imm] ∧ State.reset.result = .error ⟨0x00000000#32⟩ ∧
    step (State.reset.reading .imm) = .refused (.noRecord .imm) := ⟨rfl, rfl, rfl⟩

theorem witness_ReadsNeverChangeTheRecord :
    ((after .R 0x06C5A52F#32).reading .funct5).stimuli = [.read .funct5] ∧
    step ((after .R 0x06C5A52F#32).reading .funct5) =
      .next ((after .R 0x06C5A52F#32).withSampled ⟨.funct5, .bits5 0#5⟩) := ⟨rfl, rfl⟩

theorem witness_AmoFunct7OverlapsFunct5 :
    (0x06C5A52F#32).extractLsb' 0 7 = 0x2F#7 ∧ (0xFFFFFFAF#32).extractLsb' 0 7 = 0x2F#7 := by decide

theorem witness_FormatPortCarriesOneOfSixCodes :
    (after .J 0x001000EF#32).result = .ok (Decoded.ofWord .J 0x001000EF#32) := rfl

/-- A record with both strobes 0, one with `imm_valid` = 1 and one with `funct5_valid` = 1. -/
theorem witness_StrobesTellWhichReadsGoOn :
    ((after .R 0x002081B3#32).Settled ∧ (after .R 0x002081B3#32).result = .ok (Decoded.ofWord .R 0x002081B3#32)) ∧
    ((after .J 0x001000EF#32).Settled ∧ (after .J 0x001000EF#32).result = .ok (Decoded.ofWord .J 0x001000EF#32)) ∧
    ((after .R 0x06C5A52F#32).Settled ∧ (after .R 0x06C5A52F#32).result = .ok (Decoded.ofWord .R 0x06C5A52F#32)) :=
  ⟨answered_after _ _ rfl, answered_after _ _ rfl, answered_after _ _ rfl⟩

theorem witness_MeaningfulFieldsAreTheSelectedOnes :
    Field.rd ≠ .format ∧ Field.rd ≠ .funct5 ∧ (Decoded.ofWord .I 0x00000093#32).meaningful .rd = true ∧
    (Decoded.ofWord .R 0x06C5A52F#32).meaningful .funct5 = true := by decide

/-- Both ends of the range of each format's immediate. -/
theorem witness_DecodeInvertsEncode :
    [Instr.op 0x7F#7 31#5 31#5 7#3 31#5, .load 0xFFFFF800#32 0#5 0#3 0#5, .load 0x7FF#32 31#5 7#3 31#5,
      .store 0xFFFFF800#32 0#5 0#5 0#3, .store 0x7FF#32 31#5 31#5 7#3, .branch 0xFFFFF000#32 0#5 0#5 0#3,
      .branch 0xFFE#32 31#5 31#5 7#3, .lui 0#32 0#5, .auipc 0xFFFFF000#32 31#5, .jal 0xFFF00000#32 0#5,
      .jal 0xFFFFE#32 31#5].all Instr.wf = true := by decide

theorem witness_EncodeInvertsDecode :
    decode .custom0 0x7E62CFE3#32 = .ok (.branch 0xFFE#32 6#5 5#5 0b100#3) := by decide

/-- The word presented, with other actions after it, and the word left on the input. -/
theorem witness_StepRunsTheDecodedInstruction :
    decode State.reset.config.customSlot 0x00000093#32 = .ok (.opImm 0#32 0#5 0#3 1#5) ∧
    ((State.reset.reading .rd).presenting 0x00000093#32).stimuli = .present 0x00000093#32 :: [.read .rd] ∧
    (after .I 0x00000093#32).stimuli = [] ∧ (after .I 0x00000093#32).insn = 0x00000093#32 :=
  ⟨by decide, rfl, rfl, rfl⟩

/-- Each of the three classes. -/
theorem witness_RInstructionsAnswerTheirFields (i : Fin 3) :
    let l : List (Instr × BitVec 5 × BitVec 7) := [(.op 1#7 2#5 3#5 4#3 5#5, 0b01100#5, 1#7),
      (.custom 1#7 2#5 3#5 4#3 5#5, other.config.customSlot.opcode, 1#7),
      (.amo 0#5 1#2 2#5 3#5 4#3 5#5, 0b01011#5, 0#5 ++ 1#2)]
    l.get i ∈ l := List.get_mem _ _

/-- Each of the five classes, at one end of the range or the other. -/
theorem witness_IInstructionsAnswerTheirFields :
    -2048 ≤ (0xFFFFF800#32).toInt ∧ (0xFFFFF800#32).toInt ≤ 2047 ∧ -2048 ≤ (0x7FF#32).toInt ∧
    (0x7FF#32).toInt ≤ 2047 ∧
    ∀ i ∈ [Instr.load 0x7FF#32 1#5 0#3 2#5, .opImm 0x7FF#32 1#5 0#3 2#5, .jalr 0x7FF#32 1#5 0#3 2#5,
      .system 0x7FF#32 1#5 0#3 2#5, .miscMem 0x7FF#32 1#5 0#3 2#5], ∃ op : BitVec 5,
      (i, op) ∈ [(Instr.load 0x7FF#32 1#5 0#3 2#5, 0b00000#5), (.opImm 0x7FF#32 1#5 0#3 2#5, 0b00100#5),
        (.jalr 0x7FF#32 1#5 0#3 2#5, 0b11001#5), (.system 0x7FF#32 1#5 0#3 2#5, 0b11100#5),
        (.miscMem 0x7FF#32 1#5 0#3 2#5, 0b00011#5)] := by
  refine ⟨by decide, by decide, by decide, by decide, ?_⟩
  simp

theorem witness_StoreAnswersItsFields :
    -2048 ≤ (0xFFFFF800#32).toInt ∧ (0xFFFFF800#32).toInt ≤ 2047 ∧ -2048 ≤ (0x7FF#32).toInt ∧
    (0x7FF#32).toInt ≤ 2047 := by decide

theorem witness_BranchAnswersItsFields :
    -4096 ≤ (0xFFFFF000#32).toInt ∧ (0xFFFFF000#32).toInt ≤ 4094 ∧ (0xFFFFF000#32).extractLsb' 0 1 = 0#1 ∧
    -4096 ≤ (0xFFE#32).toInt ∧ (0xFFE#32).toInt ≤ 4094 ∧ (0xFFE#32).extractLsb' 0 1 = 0#1 := by decide

theorem witness_UInstructionsAnswerTheirFields :
    (0xFFFFF000#32).extractLsb' 0 12 = 0#12 ∧
    (Instr.lui 0xFFFFF000#32 1#5, 0b01101#5) ∈
      [(Instr.lui 0xFFFFF000#32 1#5, 0b01101#5), (.auipc 0xFFFFF000#32 1#5, 0b00101#5)] ∧
    (Instr.auipc 0xFFFFF000#32 1#5, 0b00101#5) ∈
      [(Instr.lui 0xFFFFF000#32 1#5, 0b01101#5), (.auipc 0xFFFFF000#32 1#5, 0b00101#5)] := by decide

theorem witness_JalAnswersItsFields :
    -1048576 ≤ (0xFFF00000#32).toInt ∧ (0xFFF00000#32).toInt ≤ 1048574 ∧ (0xFFF00000#32).extractLsb' 0 1 = 0#1 ∧
    -1048576 ≤ (0xFFFFE#32).toInt ∧ (0xFFFFE#32).toInt ≤ 1048574 ∧ (0xFFFFE#32).extractLsb' 0 1 = 0#1 := by decide

/-- A word of each class, CUSTOM's under two parameters. -/
theorem witness_RWordsAreAnsweredByTheirClassRule :
    (0xFFFFFFB3#32).extractLsb' 0 7 = 0b01100#5 ++ 0b11#2 ∧
    (0xFE41A08B#32).extractLsb' 0 7 = State.reset.config.customSlot.opcode ++ 0b11#2 ∧
    (0x0000002B#32).extractLsb' 0 7 = other.config.customSlot.opcode ++ 0b11#2 ∧
    (0xFFFFFFAF#32).extractLsb' 0 7 = 0b01011#5 ++ 0b11#2 ∧ State.reset.config = Config.default := by decide

theorem witness_IWordsAreAnsweredByTheirClassRule :
    (0x7FFFF003#32).extractLsb' 0 7 = 0b00000#5 ++ 0b11#2 ∧ (0x80000513#32).extractLsb' 0 7 = 0b00100#5 ++ 0b11#2 ∧
    (0xFFF280E7#32).extractLsb' 0 7 = 0b11001#5 ++ 0b11#2 ∧ (0xC00022F3#32).extractLsb' 0 7 = 0b11100#5 ++ 0b11#2 ∧
    (0x8330000F#32).extractLsb' 0 7 = 0b00011#5 ++ 0b11#2 := by decide

theorem witness_StoreWordsAreAnsweredByTheirRule :
    (0x80000023#32).extractLsb' 0 7 = 0x23#7 ∧ (0x7EB50FA3#32).extractLsb' 0 7 = 0x23#7 := by decide

theorem witness_BranchWordsAreAnsweredByTheirRule :
    (0x80000063#32).extractLsb' 0 7 = 0x63#7 ∧ (0x7E62CFE3#32).extractLsb' 0 7 = 0x63#7 := by decide

theorem witness_UWordsAreAnsweredByTheirClassRule :
    (0xFFFFFFB7#32).extractLsb' 0 7 = 0b01101#5 ++ 0b11#2 ∧ (0xFFFFF097#32).extractLsb' 0 7 = 0b00101#5 ++ 0b11#2 := by
  decide

theorem witness_JalWordsAreAnsweredByTheirRule :
    (0x8000006F#32).extractLsb' 0 7 = 0x6F#7 ∧ (0x7FFFF06F#32).extractLsb' 0 7 = 0x6F#7 := by decide

/-- A state whose environment reads `imm` of W1 and `funct5` of an AMO word. -/
def honouring : State :=
  State.reset.withStimuli
    [.present 0x00000093#32, .read .imm, .present 0x06C5A52F#32, .read .funct5, .read .rs2]

/-- The states of the three kinds of step: a word presented, a read, and none left. -/
theorem witness_HonouredContractsAreKeptByEveryStep :
    (honouring.Settled ∧ honoursContracts honouring.config.customSlot honouring.insn honouring.stimuli = true) ∧
    (((after .R 0x06C5A52F#32).reading .funct5).Settled ∧
      honoursContracts .custom0 ((after .R 0x06C5A52F#32).reading .funct5).insn
        ((after .R 0x06C5A52F#32).reading .funct5).stimuli = true) ∧
    (other.Settled ∧ honoursContracts other.config.customSlot other.insn other.stimuli = true) :=
  ⟨⟨rfl, by decide⟩, ⟨rfl, by decide⟩, rfl, by decide⟩

theorem witness_HonouredContractsNeverStopARun :
    honouring.Settled ∧ honoursContracts honouring.config.customSlot honouring.insn honouring.stimuli = true :=
  ⟨rfl, by decide⟩

/-- A state whose environment reads `imm` of an AMO word, after a read that is allowed. -/
def breaking : State := State.reset.withStimuli [.present 0x06C5A52F#32, .read .funct5, .read .imm]

/-- A state whose environment reads before any record exists. -/
def premature : State := State.reset.withStimuli [.read .rd, .present 0x00000093#32]

theorem witness_BrokenContractStopsTheRun :
    (breaking.Settled ∧ honoursContracts breaking.config.customSlot breaking.insn breaking.stimuli = false) ∧
    (premature.Settled ∧ honoursContracts premature.config.customSlot premature.insn premature.stimuli = false) :=
  ⟨⟨rfl, by decide⟩, rfl, by decide⟩

end Sys2Proof.Tests
end

/-! ## Proofs of the statements on the state and its ports (spec/10_state.md)

Two facts carry them. A presented word is answered with `decodeRecord` of it, so what holds of a record of
`decodeRecord` holds of every answered and of every settled record. And the ports are a function of the parameter, the
input word and the answer alone. -/

/-! ### A word's fields and immediates from its six groups (spec R61, R72) -/

namespace Sys2Proof.Laws

/-- The `full_opcode` of a word with the width marker is its opcode above the marker (spec R43). -/
theorem fullOpcodeOf_eq_append {w : Word} (hm : widthMarkerOf w = 0b11#2) : fullOpcodeOf w = opcodeOf w ++ 0b11#2 := by
  rw [← hm]
  exact (slice_join w 0 2 5 2 rfl).symm

/-- `funct5` is `funct7[6:2]` of every word (spec R29, R46). -/
theorem funct5Of_eq_slice (w : Word) : funct5Of w = (funct7Of w).extractLsb' 2 5 :=
  (slice_slice w 25 7 2 5 (by decide)).symm

/-- `funct5` above `insn[26:25]` is `funct7` (spec R75). -/
theorem funct5Of_append_bits26to25Of (w : Word) : funct5Of w ++ bits26to25Of w = funct7Of w :=
  slice_join w 25 27 5 2 rfl

theorem immIOf_eq_groups (w : Word) : immIOf w = sext (funct7Of w ++ rs2Of w) :=
  congrArg sext (slice_join w 20 25 7 5 rfl).symm

theorem immBOf_eq_groups (w : Word) :
    immBOf w = sext ((funct7Of w).extractLsb' 6 1 ++ (rdOf w).extractLsb' 0 1 ++ (funct7Of w).extractLsb' 0 6
      ++ (rdOf w).extractLsb' 1 4 ++ 0#1) := by
  rw [funct7Of, rdOf, slice_slice _ _ _ _ _ (by decide), slice_slice _ _ _ _ _ (by decide),
    slice_slice _ _ _ _ _ (by decide), slice_slice _ _ _ _ _ (by decide)]
  rfl

theorem immUOf_eq_groups (w : Word) : immUOf w = funct7Of w ++ rs2Of w ++ rs1Of w ++ funct3Of w ++ 0#12 := by
  have h20 : funct7Of w ++ rs2Of w = w.extractLsb' 20 12 := slice_join w 20 25 7 5 rfl
  have h15 : w.extractLsb' 20 12 ++ rs1Of w = w.extractLsb' 15 17 := slice_join w 15 20 12 5 rfl
  have h12 : w.extractLsb' 15 17 ++ funct3Of w = w.extractLsb' 12 20 := slice_join w 12 15 17 3 rfl
  rw [h20, h15, h12, immUOf]

theorem immJOf_eq_groups (w : Word) :
    immJOf w = sext ((funct7Of w).extractLsb' 6 1 ++ (rs1Of w ++ funct3Of w) ++ (rs2Of w).extractLsb' 0 1
      ++ ((funct7Of w).extractLsb' 0 6 ++ (rs2Of w).extractLsb' 1 4) ++ 0#1) := by
  have h12 : rs1Of w ++ funct3Of w = w.extractLsb' 12 8 := slice_join w 12 15 5 3 rfl
  have h21 : w.extractLsb' 25 6 ++ w.extractLsb' 21 4 = w.extractLsb' 21 10 := slice_join w 21 25 6 4 rfl
  rw [h12, funct7Of, rs2Of, slice_slice _ _ _ _ _ (by decide), slice_slice _ _ _ _ _ (by decide),
    slice_slice _ _ _ _ _ (by decide), slice_slice _ _ _ _ _ (by decide), h21]
  rfl

end Sys2Proof.Laws

/-! ### A presented word is answered by `decodeRecord` (spec R67) -/

namespace Sys2Proof.Machine

/-- The record assembled from the six groups of a word with the width marker is the record of the word. -/
theorem ofFields_eq_ofWord (f : Format) {w : Word} (hm : widthMarkerOf w = 0b11#2) :
    Decoded.ofFields f (opcodeOf w) (funct7Of w) (rs2Of w) (rs1Of w) (funct3Of w) (rdOf w) = Decoded.ofWord f w := by
  rw [Decoded.ofFields, Decoded.ofWord, Laws.fullOpcodeOf_eq_append hm, Laws.funct5Of_eq_slice, Laws.immIOf_eq_groups,
    Laws.immBOf_eq_groups, Laws.immUOf_eq_groups, Laws.immJOf_eq_groups]
  rfl

theorem recordI_immIOf (opcode : BitVec 5) (w : Word) :
    recordI opcode (immIOf w) (rs1Of w) (funct3Of w) (rdOf w) =
      Decoded.ofFields .I opcode (funct7Of w) (rs2Of w) (rs1Of w) (funct3Of w) (rdOf w) := by
  rw [recordI, Laws.immIOf_hi, Laws.immIOf_lo]

theorem recordS_immSOf (opcode : BitVec 5) (w : Word) :
    recordS opcode (immSOf w) (rs2Of w) (rs1Of w) (funct3Of w) =
      Decoded.ofFields .S opcode (funct7Of w) (rs2Of w) (rs1Of w) (funct3Of w) (rdOf w) := by
  rw [recordS, Laws.immSOf_hi, Laws.immSOf_lo]

theorem recordB_immBOf (opcode : BitVec 5) (w : Word) :
    recordB opcode (immBOf w) (rs2Of w) (rs1Of w) (funct3Of w) =
      Decoded.ofFields .B opcode (funct7Of w) (rs2Of w) (rs1Of w) (funct3Of w) (rdOf w) := by
  have hf7 : w.extractLsb' 31 1 ++ w.extractLsb' 25 6 = funct7Of w := Laws.slice_join w 25 31 1 6 rfl
  have hrd : w.extractLsb' 8 4 ++ w.extractLsb' 7 1 = rdOf w := Laws.slice_join w 7 8 4 1 rfl
  rw [recordB, Laws.immBOf_sign, Laws.immBOf_hi, Laws.immBOf_lo, Laws.immBOf_bit11, hf7, hrd]

theorem recordU_immUOf (opcode : BitVec 5) (w : Word) :
    recordU opcode (immUOf w) (rdOf w) =
      Decoded.ofFields .U opcode (funct7Of w) (rs2Of w) (rs1Of w) (funct3Of w) (rdOf w) := by
  have hf7 : (immUOf w).extractLsb' 25 7 = funct7Of w := Laws.immUOf_hi w 13 7 (by decide)
  have hrs2 : (immUOf w).extractLsb' 20 5 = rs2Of w := Laws.immUOf_hi w 8 5 (by decide)
  have hrs1 : (immUOf w).extractLsb' 15 5 = rs1Of w := Laws.immUOf_hi w 3 5 (by decide)
  have hf3 : (immUOf w).extractLsb' 12 3 = funct3Of w := Laws.immUOf_hi w 0 3 (by decide)
  rw [recordU, hf7, hrs2, hrs1, hf3]

theorem recordJ_immJOf (opcode : BitVec 5) (w : Word) :
    recordJ opcode (immJOf w) (rdOf w) =
      Decoded.ofFields .J opcode (funct7Of w) (rs2Of w) (rs1Of w) (funct3Of w) (rdOf w) := by
  have hhi : (immJOf w).extractLsb' 5 6 = w.extractLsb' 25 6 := Laws.immJOf_mid w 4 6 (by decide)
  have hlo : (immJOf w).extractLsb' 1 4 = w.extractLsb' 21 4 := Laws.immJOf_mid w 0 4 (by decide)
  have hf7 : w.extractLsb' 31 1 ++ w.extractLsb' 25 6 = funct7Of w := Laws.slice_join w 25 31 1 6 rfl
  have hrs2 : w.extractLsb' 21 4 ++ w.extractLsb' 20 1 = rs2Of w := Laws.slice_join w 20 21 4 1 rfl
  have hrs1 : (immJOf w).extractLsb' 15 5 = rs1Of w := Laws.immJOf_stay w 3 5 (by decide)
  have hf3 : (immJOf w).extractLsb' 12 3 = funct3Of w := Laws.immJOf_stay w 0 3 (by decide)
  rw [recordJ, Laws.immJOf_sign, hhi, hlo, Laws.immJOf_bit11, hf7, hrs2, hrs1, hf3]

/-- The meaning of the instruction read off a word answers with the record assembled from the word's six groups: every
class lays its operands out again where its format took them from (spec R61, R73 to R85). -/
theorem exec_instrOf (c : OpcodeClass) (w : Word) (s : State) :
    exec (instrOf c w) s = answerOk (Decoded.ofFields c.format (c.opcode s.config.customSlot) (funct7Of w) (rs2Of w)
      (rs1Of w) (funct3Of w) (rdOf w)) s := by
  cases c with
  | op | custom => rfl
  | amo => exact congrArg (fun f7 => answerOk (recordR _ f7 _ _ _ _) s) (Laws.funct5Of_append_bits26to25Of w)
  | load | opImm | jalr | system | miscMem => exact congrArg (answerOk · s) (recordI_immIOf _ w)
  | store => exact congrArg (answerOk · s) (recordS_immSOf _ w)
  | branch => exact congrArg (answerOk · s) (recordB_immBOf _ w)
  | lui | auipc => exact congrArg (answerOk · s) (recordU_immUOf _ w)
  | jal => exact congrArg (answerOk · s) (recordJ_immJOf _ w)

@[simp] theorem instrOf_opcodeClass (c : OpcodeClass) (w : Word) : (instrOf c w).opcodeClass = c := by
  cases c <;> rfl

/-- The spec's `decode` accepts what the decoder accepts, and answers with the record of the word in the format of the
instruction's class. -/
theorem decodeRecord_eq_map_decode (slot : CustomSlot) (w : Word) :
    decodeRecord slot w = (decode slot w).map fun i => Decoded.ofWord i.opcodeClass.format w := by
  unfold decodeRecord decode formatOf
  split_ifs with h0 hm
  · rfl
  · rfl
  · cases classOf slot (opcodeOf w) with
    | none => rfl
    | some c => simp [Except.map]

/-- What the spec's `decode` accepts, and what it then answers. -/
theorem decodeRecord_eq_ok_iff (slot : CustomSlot) (w : Word) (d : Decoded) :
    decodeRecord slot w = .ok d ↔
      widthMarkerOf w = 0b11#2 ∧ ∃ c, classOf slot (opcodeOf w) = some c ∧ d = Decoded.ofWord c.format w := by
  have hmap : decodeRecord slot w = .ok d ↔
      ∃ i, decode slot w = .ok i ∧ d = Decoded.ofWord i.opcodeClass.format w := by
    rw [decodeRecord_eq_map_decode]
    cases decode slot w <;> simp [Except.map, eq_comm]
  rw [hmap]
  simp only [Laws.decode_eq_ok_iff]
  constructor
  · rintro ⟨_, ⟨hm, c, hc, rfl⟩, rfl⟩
    exact ⟨hm, c, hc, by rw [instrOf_opcodeClass]⟩
  · rintro ⟨hm, c, hc, rfl⟩
    exact ⟨instrOf c w, ⟨hm, c, hc, rfl⟩, by rw [instrOf_opcodeClass]⟩

/-- The block with a word on its input answers with `decode` of the word, and writes nothing else (spec R67). -/
theorem settle_eq_next_decodeRecord (w : Word) (s : State) :
    settle w s = .next ((s.withInsn w).withResult (decodeRecord s.config.customSlot w)) := by
  unfold settle
  rw [decodeRecord_eq_map_decode]
  cases h : decode s.config.customSlot w with
  | error e => rw [Laws.decode_error_word h]; rfl
  | ok i =>
    obtain ⟨hm, c, hc, rfl⟩ := (Laws.decode_eq_ok_iff _ _ _).mp h
    have hop : c.opcode (s.withInsn w).config.customSlot = opcodeOf w := (Laws.classOf_eq_some_iff _ _ _).mp hc
    simp only [exec_instrOf, hop, ofFields_eq_ofWord c.format hm, Except.map, instrOf_opcodeClass]
    rfl

/-- A step that presents a word settles it. -/
theorem step_presenting (s : State) (w : Word) :
    step (s.presenting w) = .next ((s.withInsn w).withResult (decodeRecord s.config.customSlot w)) :=
  settle_eq_next_decodeRecord w s

/-- The block answers a word with a record exactly when that record is `decode` of the word. -/
theorem answeredWith_iff (s : State) (w : Word) (d : Decoded) :
    AnsweredWith s w d ↔ decodeRecord s.config.customSlot w = .ok d := by
  rw [AnsweredWith, step_presenting, State.answered]
  constructor
  · intro h
    exact congrArg State.result (Host.Outcome.next.inj h)
  · intro h
    rw [h]

theorem opcodeClass_mem_all (c : OpcodeClass) : c ∈ OpcodeClass.all := by
  cases c <;> decide

/-- The legal opcodes are those the map gives a class (spec R55, R58). -/
theorem mem_legalOpcodes_iff {slot : CustomSlot} {opcode : BitVec 5} :
    opcode ∈ legalOpcodes slot ↔ ∃ c, classOf slot opcode = some c := by
  simp only [legalOpcodes, List.mem_map, opcodeClass_mem_all, true_and, Laws.classOf_eq_some_iff]

/-- A legal word carries the width marker and the opcode of a class (spec R55, R56). -/
theorem legal_eq_true_iff (slot : CustomSlot) (w : Word) :
    legal slot w = true ↔ widthMarkerOf w = 0b11#2 ∧ ∃ c, classOf slot (opcodeOf w) = some c := by
  simp only [legal, Bool.and_eq_true, bne_iff_ne, beq_iff_eq, List.contains_iff_mem, mem_legalOpcodes_iff]
  constructor
  · rintro ⟨⟨-, hm⟩, hc⟩
    exact ⟨hm, hc⟩
  · rintro ⟨hm, c, hc⟩
    exact ⟨⟨⟨Laws.ne_allZero_of_widthMarker hm, Laws.ne_allOnes_of_classOf hc⟩, hm⟩, c, hc⟩

/-- A legal word is answered with its own record, in the format of its opcode's class. -/
theorem answeredWith_ofWord_of_legal {s : State} {w : Word} (h : legal s.config.customSlot w = true) :
    ∃ c, classOf s.config.customSlot (opcodeOf w) = some c ∧ AnsweredWith s w (Decoded.ofWord c.format w) := by
  obtain ⟨hm, c, hc⟩ := (legal_eq_true_iff _ _).mp h
  exact ⟨c, hc, (answeredWith_iff _ _ _).mpr ((decodeRecord_eq_ok_iff _ _ _).mpr ⟨hm, c, hc, rfl⟩)⟩

/-! ### Settled records -/

/-- A settled record is the record of the input word, in the format of its opcode's class. -/
theorem State.Settled.record_eq {s : State} {d : Decoded} (hs : s.Settled) (hd : s.result = .ok d) :
    widthMarkerOf s.insn = 0b11#2 ∧
      ∃ c, classOf s.config.customSlot (opcodeOf s.insn) = some c ∧ d = Decoded.ofWord c.format s.insn :=
  (decodeRecord_eq_ok_iff _ _ _).mp (hs.symm.trans hd)

/-- The map gives a settled record's opcode the record's format (spec R21). -/
theorem State.Settled.formatOf_opcode {s : State} {d : Decoded} (hs : s.Settled) (hd : s.result = .ok d) :
    formatOf s.config.customSlot d.opcode = some d.format := by
  obtain ⟨-, c, hc, rfl⟩ := hs.record_eq hd
  exact congrArg (Option.map OpcodeClass.format) hc

/-! ### The ports -/

/-- The ports are a function of the parameter, the input word and the answer (spec R24, R31). -/
theorem ports_congr {s t : State} (hc : s.config = t.config) (hi : s.insn = t.insn) (hr : s.result = t.result) :
    s.ports = t.ports := by
  simp only [State.ports, hc, hi, hr]

@[simp] theorem strobe_eq_one_iff (b : Bool) : strobe b = 1#1 ↔ b = true := by
  cases b <;> decide

@[simp] theorem strobe_eq_zero_iff (b : Bool) : strobe b = 0#1 ↔ b = false := by
  cases b <;> decide

theorem strobe_decide (p : Prop) [Decidable p] : strobe (decide p) = if p then 1#1 else 0#1 := by
  simp only [strobe, decide_eq_true_eq]

theorem strobe_ne_R (f : Format) : strobe (f != .R) = if f = .R then 0#1 else 1#1 := by
  cases f <;> rfl

/-- A format's code names the format (spec R26). -/
@[simp] theorem ofCode_code (f : Format) : Format.ofCode f.code = some f := by
  cases f <;> decide

/-- The `format` port carries a format's code, beside a record the record's (spec R24, R26). -/
theorem ports_format_eq_code (s : State) :
    ∃ f : Format, s.ports.format = f.code ∧ ∀ d, s.result = .ok d → f = d.format := by
  cases h : s.result with
  | error e => exact ⟨_, by rw [ports_of_error h]; rfl, by simp⟩
  | ok d => exact ⟨d.format, by rw [ports_of_ok h]; rfl, by simp⟩

theorem ports_immValid_of_ok {s : State} {d : Decoded} (h : s.result = .ok d) :
    s.ports.immValid = strobe (d.format != .R) := by
  rw [ports_of_ok h]
  rfl

theorem ports_funct5Valid_of_ok {s : State} {d : Decoded} (h : s.result = .ok d) :
    s.ports.funct5Valid = strobe (d.opcode == amoOpcode) := by
  rw [ports_of_ok h]
  rfl

theorem ports_answered (s : State) (w : Word) (d : Decoded) :
    (s.answered w d).ports = Ports.ofRecord s.config w d := rfl

/-! ### A read as a step -/

/-- A step whose next action is a read makes it, off the queue. -/
theorem step_of_read {s : State} {f : Field} {rest : List Stimulus} (h : s.stimuli = .read f :: rest) :
    step s = readField f (s.withStimuli rest) := by
  rw [step, h]
  rfl

theorem step_reading (s : State) (f : Field) : step (s.reading f) = readField f s := rfl

/-- Beside a record, a read goes on exactly where its contract allows it (spec R87). -/
theorem step_reading_goesOn_iff {s : State} {d : Decoded} (hd : s.result = .ok d) (f : Field) :
    (∃ t, step (s.reading f) = .next t) ↔ readAllowed (.ok d) f = true := by
  simp [step_reading, readField_eq_next_iff, readAllowed_ok_iff, hd]

/-- Beside a record, a read faults exactly as its getter does. -/
theorem step_reading_eq_fault_iff {s : State} {d : Decoded} (hd : s.result = .ok d) (f : Field) (e : Fault) :
    step (s.reading f) = .fault e ↔ d.read f = .error e := by
  rw [step_reading, readField, hd]
  cases h : d.read f <;> simp [h]

/-! ### The statements -/

/-- Settles O10: the answer is `decode` of the input word, and the ports are a function of parameter, word and
answer. -/
theorem outputsDependOnTheWordAlone : Obligations.OutputsDependOnTheWordAlone := by
  intro s t hs ht hc hi
  have hr : s.result = t.result := by rw [hs, ht, hc, hi]
  exact ⟨hr, ports_congr hc hi hr⟩

/-- Settles O17: a settled record is the record of a word whose opcode is in the map. -/
theorem recordsFormatFollowsItsOpcode : Obligations.RecordsFormatFollowsItsOpcode := by
  intro s d hs hd
  have hf := hs.formatOf_opcode hd
  refine ⟨hf, ?_, ?_, ?_⟩
  · obtain ⟨-, c, hc, rfl⟩ := hs.record_eq hd
    exact mem_legalOpcodes_iff.mpr ⟨c, hc⟩
  · obtain ⟨hm, c, hc, rfl⟩ := hs.record_eq hd
    exact Laws.fullOpcodeOf_eq_append hm
  · intro t d' ht hconfig hd' hop
    have hf' := ht.formatOf_opcode hd'
    rw [hconfig, hop] at hf'
    exact Option.some.inj (hf'.symm.trans hf)

/-- Settles O28: a read that goes on writes the sample and nothing else. -/
theorem readsNeverChangeTheRecord : Obligations.ReadsNeverChangeTheRecord := by
  intro s t f rest hq hstep
  rw [step_of_read hq] at hstep
  obtain ⟨d, v, hd, hv, rfl⟩ := (readField_eq_next_iff _ _ _).mp hstep
  exact ⟨rfl, rfl, rfl, ports_congr rfl rfl rfl, rfl, d, v, hd, hv, rfl⟩

/-- Settles O30: a legal word is answered with its own record, whose fields the ports carry. -/
theorem portsOfALegalWord : Obligations.PortsOfALegalWord := by
  intro s w hlegal
  obtain ⟨c, -, hans⟩ := answeredWith_ofWord_of_legal hlegal
  refine ⟨_, hans, ?_⟩
  rw [ports_answered]
  refine ⟨rfl, ?format, rfl, rfl, rfl, rfl, rfl, ?funct5Valid, rfl, rfl, rfl, fun v hv => ?imm, ?immValid⟩
  case format => cases c.format <;> rfl
  case funct5Valid => exact strobe_decide (opcodeOf w = amoOpcode)
  case imm => exact congrArg (Option.getD · _) hv
  case immValid => exact strobe_ne_R c.format

/-- Settles O31: the port carries the code of a format, and no format has the other two codes. -/
theorem formatPortCarriesOneOfSixCodes : Obligations.FormatPortCarriesOneOfSixCodes := by
  have h6 : Format.ofCode 0b110#3 = none := by decide
  have h7 : Format.ofCode 0b111#3 = none := by decide
  refine ⟨fun s => ?_, h6, h7⟩
  obtain ⟨f, hport, hrecord⟩ := ports_format_eq_code s
  have hnames : Format.ofCode s.ports.format = some f := by rw [hport, ofCode_code]
  refine ⟨fun h => ?_, fun h => ?_, by rw [hnames]; rfl, fun d hd => by rw [hnames, hrecord d hd]⟩
  · simp [h, h6] at hnames
  · simp [h, h7] at hnames

/-- Settles O32: each strobe is its read's contract on the record, and `funct5` is a slice of `funct7` in every word. -/
theorem strobesTellWhichReadsGoOn : Obligations.StrobesTellWhichReadsGoOn := by
  intro s d hs hd
  rw [ports_immValid_of_ok hd, ports_funct5Valid_of_ok hd]
  simp only [strobe_eq_one_iff, strobe_eq_zero_iff, step_reading_goesOn_iff hd, step_reading_eq_fault_iff hd,
    read_eq_error_iff]
  refine ⟨?immGoesOn, ?immFaults, ?funct5GoesOn, ?funct5Faults, ?funct5Port⟩
  case immGoesOn => simp [readAllowed]
  case immFaults => simpa using fun h : d.format = .R => h.symm
  case funct5GoesOn => simp [readAllowed]
  case funct5Faults => simp
  case funct5Port =>
    obtain ⟨-, c, -, rfl⟩ := hs.record_eq hd
    rw [ports_of_ok hd]
    exact Laws.funct5Of_eq_slice s.insn

end Sys2Proof.Machine

/-! ## Proof of the statement on the producer's bytes (spec/20_memory.md)

`wordOfBytes` and `bytesOfWord` are inverse to each other. The one direction names each byte of an assembled word; by the
other, whatever reads bytes meets in the bytes of a word that word. -/

namespace Sys2Proof.Laws

/-! ### Bytes to a word and back (spec R33) -/

/-- An assembled word's four bytes are those it was assembled from: each slice passes by the bytes below its own. -/
theorem bytesOfWord_wordOfBytes (b0 b1 b2 b3 : Byte) : bytesOfWord (wordOfBytes b0 b1 b2 b3) = [b0, b1, b2, b3] := by
  have h0 : (wordOfBytes b0 b1 b2 b3).extractLsb' 0 8 = b0 := by
    rw [wordOfBytes, slice_append_lo _ _ _ _ (by decide), BitVec.extractLsb'_eq_self]
  have h1 : (wordOfBytes b0 b1 b2 b3).extractLsb' 8 8 = b1 := by
    rw [wordOfBytes, slice_append_hi _ _ _ _ (by decide), slice_append_lo _ _ _ _ (by decide), BitVec.extractLsb'_eq_self]
  have h2 : (wordOfBytes b0 b1 b2 b3).extractLsb' 16 8 = b2 := by
    rw [wordOfBytes, slice_append_hi _ _ _ _ (by decide), slice_append_hi _ _ _ _ (by decide),
      slice_append_lo _ _ _ _ (by decide), BitVec.extractLsb'_eq_self]
  have h3 : (wordOfBytes b0 b1 b2 b3).extractLsb' 24 8 = b3 := by
    rw [wordOfBytes, slice_append_hi _ _ _ _ (by decide), slice_append_hi _ _ _ _ (by decide),
      slice_append_hi _ _ _ _ (by decide), BitVec.extractLsb'_eq_self]
  rw [bytesOfWord, h0, h1, h2, h3]

/-- A word's own bytes, in address order, make the word again: they are adjacent slices that join to the whole. -/
theorem wordOfBytes_slices (w : Word) :
    wordOfBytes (w.extractLsb' 0 8) (w.extractLsb' 8 8) (w.extractLsb' 16 8) (w.extractLsb' 24 8) = w := by
  have h16 : w.extractLsb' 24 8 ++ w.extractLsb' 16 8 = w.extractLsb' 16 16 := slice_join w 16 24 8 8 rfl
  have h8 : w.extractLsb' 16 16 ++ w.extractLsb' 8 8 = w.extractLsb' 8 24 := slice_join w 8 16 16 8 rfl
  have h0 : w.extractLsb' 8 24 ++ w.extractLsb' 0 8 = w.extractLsb' 0 32 := slice_join w 0 8 24 8 rfl
  rw [wordOfBytes, h16, h8, h0, BitVec.extractLsb'_eq_self]

/-! ### What reads bytes, on the bytes of a word -/

theorem wordsOfImage_bytesOfWord_append (w : Word) (rest : List Byte) :
    wordsOfImage (bytesOfWord w ++ rest) = w :: wordsOfImage rest :=
  congrArg (· :: wordsOfImage rest) (wordOfBytes_slices w)

theorem decodeBytes_bytesOfWord_of_ok {slot : CustomSlot} {w : Word} {i : Instr} (h : decode slot w = .ok i)
    (rest : List Byte) : decodeBytes slot (bytesOfWord w ++ rest) = .ok (i, rest) := by
  simp only [bytesOfWord, List.cons_append, List.nil_append, decodeBytes, wordOfBytes_slices, h]

theorem decodeBytes_bytesOfWord_of_error {slot : CustomSlot} {w : Word} {e : IllegalInstruction}
    (h : decode slot w = .error e) (rest : List Byte) :
    decodeBytes slot (bytesOfWord w ++ rest) = .error (.illegalInstruction e) := by
  simp only [bytesOfWord, List.cons_append, List.nil_append, decodeBytes, wordOfBytes_slices, h]

/-! ### The statement -/

/-- Settles O38: the bytes of an assembled word are its four, and a word's own bytes make the word that the decoder and an
image's reader then meet. -/
theorem producersBytesMakeTheWord : Obligations.ProducersBytesMakeTheWord := by
  refine ⟨fun b0 b1 b2 b3 => ?bytes, fun slot w rest => ?decoded, wordsOfImage_bytesOfWord_append⟩
  case bytes => simpa [bytesOfWord] using bytesOfWord_wordOfBytes b0 b1 b2 b3
  case decoded =>
    cases h : decode slot w with
    | ok i => exact decodeBytes_bytesOfWord_of_ok h rest
    | error e => exact decodeBytes_bytesOfWord_of_error h rest

end Sys2Proof.Laws

/-! ## Proofs of the statements on the encoding (spec/30_encoding.md)

Each format's layout puts an immediate's bits where its `imm_*Of` takes them from, so of an immediate in the format's range
the one undoes the other: `immIOf_layoutI` and its four siblings. With the six groups of a laid-out word they make the
decoder the encoder's inverse, and every instruction's record the record of its word. -/

/-! ### The values of the immediates (spec R50 to R54) -/

namespace Sys2Proof.Laws

/-- Equal slices are equal bit by bit. -/
theorem getLsbD_eq_of_slice_eq {n m len lo lo' : Nat} {a : BitVec n} {b : BitVec m}
    (h : a.extractLsb' lo len = b.extractLsb' lo' len) (i : Nat) (hi : i < len) :
    a.getLsbD (lo + i) = b.getLsbD (lo' + i) := by
  simpa [hi] using congrArg (BitVec.getLsbD · i) h

/-- From its sign bit up, a sign extension repeats that bit (spec R10). -/
theorem sext_getLsbD_above {n k : Nat} (v : BitVec (n + 1)) (hn : n + 1 ≤ 32) (hk : n ≤ k) (hk' : k < 32) :
    (sext v).getLsbD k = (sext v).getLsbD n := by
  rw [sext_hi v n.succ_pos hn k hk hk', sext_hi v n.succ_pos hn n le_rfl hn]

theorem sext_toInt_ge {n : Nat} (v : BitVec n) (hn : n ≤ 32) : -2 ^ (n - 1) ≤ (sext v).toInt :=
  (sext_toInt v hn).symm ▸ BitVec.le_toInt v

theorem sext_toInt_lt {n : Nat} (v : BitVec n) (hn : n ≤ 32) : (sext v).toInt < 2 ^ (n - 1) :=
  (sext_toInt v hn).symm ▸ BitVec.toInt_lt

/-- A word in the range of `n` signed bits is the sign extension of its low `n` bits. -/
theorem sext_low_eq_self {n : Nat} {imm : Word} (h0 : 0 < n) (hn : n ≤ 32) (hlo : -2 ^ (n - 1) ≤ imm.toInt)
    (hhi : imm.toInt < 2 ^ (n - 1)) : sext (imm.extractLsb' 0 n) = imm :=
  sext_eq_of_inRange _ imm h0 hn (by rw [slice_toNat, pow_zero, Nat.div_one]) hlo hhi

/-- A word whose bit 0 is 0 is an even number. -/
theorem two_dvd_toInt_of_even {imm : Word} (h : imm.extractLsb' 0 1 = 0#1) : 2 ∣ imm.toInt := by
  have h0 : imm.toNat / 2 ^ 0 % 2 ^ 1 = 0 := (slice_toNat imm 0 1).symm.trans (congrArg BitVec.toNat h)
  rw [BitVec.toInt_eq_toNat_cond]
  omega

theorem immISWellFormed_iff (imm : Word) : immISWellFormed imm = true ↔ -2048 ≤ imm.toInt ∧ imm.toInt ≤ 2047 := by
  simp [immISWellFormed, immInRange]

theorem immBWellFormed_iff (imm : Word) :
    immBWellFormed imm = true ↔ (-4096 ≤ imm.toInt ∧ imm.toInt ≤ 4094) ∧ imm.extractLsb' 0 1 = 0#1 := by
  simp [immBWellFormed, immInRange]

theorem immUWellFormed_iff (imm : Word) : immUWellFormed imm = true ↔ imm.extractLsb' 0 12 = 0#12 := by
  simp [immUWellFormed]

theorem immJWellFormed_iff (imm : Word) :
    immJWellFormed imm = true ↔ (-1048576 ≤ imm.toInt ∧ imm.toInt ≤ 1048574) ∧ imm.extractLsb' 0 1 = 0#1 := by
  simp [immJWellFormed, immInRange]

theorem sext12_wellFormed (v : BitVec 12) : immISWellFormed (sext v) = true :=
  (immISWellFormed_iff _).mpr ⟨sext_toInt_ge v (by decide), Int.lt_add_one_iff.mp (sext_toInt_lt v (by decide))⟩

theorem immIOf_wellFormed (w : Word) : immISWellFormed (immIOf w) = true := sext12_wellFormed _

theorem immSOf_wellFormed (w : Word) : immISWellFormed (immSOf w) = true := sext12_wellFormed _

/-- An even value of 13 signed bits ends at 4094, not at 4095. -/
theorem immBOf_wellFormed (w : Word) : immBWellFormed (immBOf w) = true := by
  have hlo : -4096 ≤ (immBOf w).toInt := sext_toInt_ge _ (by decide)
  have hhi : (immBOf w).toInt < 4096 := sext_toInt_lt _ (by decide)
  have heven := two_dvd_toInt_of_even (immBOf_even w)
  exact (immBWellFormed_iff _).mpr ⟨⟨hlo, by omega⟩, immBOf_even w⟩

theorem immUOf_wellFormed (w : Word) : immUWellFormed (immUOf w) = true := (immUWellFormed_iff _).mpr (immUOf_lo w)

/-- An even value of 21 signed bits ends at 1048574, not at 1048575. -/
theorem immJOf_wellFormed (w : Word) : immJWellFormed (immJOf w) = true := by
  have hlo : -1048576 ≤ (immJOf w).toInt := sext_toInt_ge _ (by decide)
  have hhi : (immJOf w).toInt < 1048576 := sext_toInt_lt _ (by decide)
  have heven := two_dvd_toInt_of_even (immJOf_even w)
  exact (immJWellFormed_iff _).mpr ⟨⟨hlo, by omega⟩, immJOf_even w⟩

/-! ### The sign bit of each immediate (spec R50 to R54) -/

theorem immIOf_getLsbD_above (w : Word) (k : Nat) (hk : 11 ≤ k) (hk' : k < 32) :
    (immIOf w).getLsbD k = w.getLsbD 31 :=
  (sext_getLsbD_above _ (by decide) hk hk').trans (getLsbD_eq_of_slice_eq (immIOf_hi w) 6 (by decide))

theorem immSOf_getLsbD_above (w : Word) (k : Nat) (hk : 11 ≤ k) (hk' : k < 32) :
    (immSOf w).getLsbD k = w.getLsbD 31 :=
  (sext_getLsbD_above _ (by decide) hk hk').trans (getLsbD_eq_of_slice_eq (immSOf_hi w) 6 (by decide))

theorem immBOf_getLsbD_above (w : Word) (k : Nat) (hk : 12 ≤ k) (hk' : k < 32) :
    (immBOf w).getLsbD k = w.getLsbD 31 :=
  (sext_getLsbD_above _ (by decide) hk hk').trans (bit_of_slice _ _ 12 31 (immBOf_sign w))

theorem immJOf_getLsbD_above (w : Word) (k : Nat) (hk : 20 ≤ k) (hk' : k < 32) :
    (immJOf w).getLsbD k = w.getLsbD 31 :=
  (sext_getLsbD_above _ (by decide) hk hk').trans (bit_of_slice _ _ 20 31 (immJOf_sign w))

/-- The U immediate is the word with its low 12 bits masked off (spec R53). -/
theorem immUOf_eq_and (w : Word) : immUOf w = w &&& 0xFFFFF000#32 := by
  have hw : w.extractLsb' 12 20 ++ w.extractLsb' 0 12 = w :=
    (slice_join w 0 12 20 12 rfl).trans BitVec.extractLsb'_eq_self
  calc immUOf w = (w.extractLsb' 12 20 &&& BitVec.allOnes 20) ++ (w.extractLsb' 0 12 &&& 0#12) := by
        rw [BitVec.and_allOnes, BitVec.and_zero, immUOf]
    _ = (w.extractLsb' 12 20 ++ w.extractLsb' 0 12) &&& (BitVec.allOnes 20 ++ 0#12) := BitVec.and_append.symm
    _ = w &&& 0xFFFFF000#32 := by rw [hw]; rfl

/-! ### What each layout's word gives back (spec R61) -/

/-- A word is laid out from its own six groups (spec R72). -/
theorem layout_groups (w : Word) :
    layout (funct7Of w) (rs2Of w) (rs1Of w) (funct3Of w) (rdOf w) (fullOpcodeOf w) = w := by
  have h20 : funct7Of w ++ rs2Of w = w.extractLsb' 20 12 := slice_join w 20 25 7 5 rfl
  have h15 : w.extractLsb' 20 12 ++ rs1Of w = w.extractLsb' 15 17 := slice_join w 15 20 12 5 rfl
  have h12 : w.extractLsb' 15 17 ++ funct3Of w = w.extractLsb' 12 20 := slice_join w 12 15 17 3 rfl
  have h7 : w.extractLsb' 12 20 ++ rdOf w = w.extractLsb' 7 25 := slice_join w 7 12 20 5 rfl
  have h0 : w.extractLsb' 7 25 ++ fullOpcodeOf w = w.extractLsb' 0 32 := slice_join w 0 7 25 7 rfl
  rw [layout, h20, h15, h12, h7, h0, BitVec.extractLsb'_eq_self]

section Layouts

variable {imm : Word} (rs2 rs1 : RegIdx) (funct3 : BitVec 3) (rd : RegIdx) (full : BitVec 7)

/-- `imm[11:0]`, in its two groups, extends to an I or S immediate. -/
theorem sext_groups_of_immIS (h : immISWellFormed imm = true) :
    sext (imm.extractLsb' 5 7 ++ imm.extractLsb' 0 5) = imm := by
  obtain ⟨hlo, hhi⟩ := (immISWellFormed_iff imm).mp h
  rw [slice_join imm 0 5 7 5 rfl]
  exact sext_low_eq_self (by decide) (by decide) hlo (by omega)

theorem immIOf_layoutI (h : immISWellFormed imm = true) : immIOf (layoutI imm rs1 funct3 rd full) = imm := by
  rw [immIOf_eq_groups, layoutI, funct7Of_layout, rs2Of_layout, sext_groups_of_immIS h]

theorem immSOf_layoutS (h : immISWellFormed imm = true) : immSOf (layoutS imm rs2 rs1 funct3 full) = imm := by
  have hgroups (w : Word) : immSOf w = sext (funct7Of w ++ rdOf w) := rfl
  rw [hgroups, layoutS, funct7Of_layout, rdOf_layout, sext_groups_of_immIS h]

theorem immBOf_layoutB (h : immBWellFormed imm = true) : immBOf (layoutB imm rs2 rs1 funct3 full) = imm := by
  obtain ⟨⟨hlo, hhi⟩, heven⟩ := (immBWellFormed_iff imm).mp h
  rw [immBOf_eq_groups, layoutB, funct7Of_layout, rdOf_layout, slice_append_hi _ _ 6 1 (by decide),
    slice_append_lo _ _ 0 1 (by decide), slice_append_lo _ _ 0 6 (by decide), slice_append_hi _ _ 1 4 (by decide),
    BitVec.extractLsb'_eq_self, BitVec.extractLsb'_eq_self, BitVec.extractLsb'_eq_self, BitVec.extractLsb'_eq_self,
    ← heven, slice_join imm 11 12 1 1 rfl, slice_join imm 5 11 2 6 rfl, slice_join imm 1 5 8 4 rfl,
    slice_join imm 0 1 12 1 rfl]
  exact sext_low_eq_self (by decide) (by decide) hlo (by omega)

theorem immUOf_layoutU (h : immUWellFormed imm = true) : immUOf (layoutU imm rd full) = imm := by
  rw [immUOf_eq_groups, layoutU, funct7Of_layout, rs2Of_layout, rs1Of_layout, funct3Of_layout,
    ← (immUWellFormed_iff imm).mp h, slice_join imm 20 25 7 5 rfl, slice_join imm 15 20 12 5 rfl,
    slice_join imm 12 15 17 3 rfl, slice_join imm 0 12 20 12 rfl, BitVec.extractLsb'_eq_self]

theorem immJOf_layoutJ (h : immJWellFormed imm = true) : immJOf (layoutJ imm rd full) = imm := by
  obtain ⟨⟨hlo, hhi⟩, heven⟩ := (immJWellFormed_iff imm).mp h
  rw [immJOf_eq_groups, layoutJ, funct7Of_layout, rs2Of_layout, rs1Of_layout, funct3Of_layout,
    slice_append_hi _ _ 6 1 (by decide), slice_append_lo _ _ 0 1 (by decide), slice_append_lo _ _ 0 6 (by decide),
    slice_append_hi _ _ 1 4 (by decide), BitVec.extractLsb'_eq_self, BitVec.extractLsb'_eq_self,
    BitVec.extractLsb'_eq_self, BitVec.extractLsb'_eq_self, ← heven, slice_join imm 12 15 5 3 rfl,
    slice_join imm 1 5 6 4 rfl, slice_join imm 12 20 1 8 rfl, slice_join imm 11 12 9 1 rfl,
    slice_join imm 1 11 10 10 rfl, slice_join imm 0 1 20 1 rfl]
  exact sext_low_eq_self (by decide) (by decide) hlo (by omega)

end Layouts

/-- A laid-out word's `funct5` is the upper part of a `funct7` split as AMO splits it (spec R75). -/
theorem funct5Of_layout (funct5 : BitVec 5) (low : BitVec 2) (rs2 rs1 : RegIdx) (funct3 : BitVec 3) (rd : RegIdx)
    (full : BitVec 7) : funct5Of (layout (funct5 ++ low) rs2 rs1 funct3 rd full) = funct5 := by
  rw [funct5Of_eq_slice, funct7Of_layout, slice_append_hi _ _ _ _ (by decide), BitVec.extractLsb'_eq_self]

theorem bits26to25Of_layout (funct5 : BitVec 5) (low : BitVec 2) (rs2 rs1 : RegIdx) (funct3 : BitVec 3) (rd : RegIdx)
    (full : BitVec 7) : bits26to25Of (layout (funct5 ++ low) rs2 rs1 funct3 rd full) = low := by
  have hslice (w : Word) : bits26to25Of w = (funct7Of w).extractLsb' 0 2 := (slice_slice w 25 7 0 2 (by decide)).symm
  rw [hslice, funct7Of_layout, slice_append_lo _ _ _ _ (by decide), BitVec.extractLsb'_eq_self]

/-! ### The decoder on an encoded instruction -/

/-- An instruction's word carries the width marker and the opcode of its class, whatever its operands (spec R43, R58). -/
theorem encode_carries_class (i : Instr) : EncodesItsClass.Statement i := by
  intro slot
  cases i <;> exact layout_carries_class slot ..

/-- The fields read off a well-formed instruction's word are the instruction's own. -/
theorem instrOf_encode (slot : CustomSlot) {i : Instr} (h : i.WellFormed) :
    instrOf i.opcodeClass (encode slot i) = i := by
  cases i with
  | op | custom =>
    simp only [instrOf, encode, Instr.opcodeClass, funct7Of_layout, rs2Of_layout, rs1Of_layout, funct3Of_layout,
      rdOf_layout]
  | amo =>
    simp only [instrOf, encode, Instr.opcodeClass, funct5Of_layout, bits26to25Of_layout, rs2Of_layout, rs1Of_layout,
      funct3Of_layout, rdOf_layout]
  | load | opImm | jalr | system | miscMem =>
    simp only [instrOf, encode, Instr.opcodeClass, immIOf_layoutI _ _ _ _ h]
    simp only [layoutI, rs1Of_layout, funct3Of_layout, rdOf_layout]
  | store =>
    simp only [instrOf, encode, Instr.opcodeClass, immSOf_layoutS _ _ _ _ h]
    simp only [layoutS, rs2Of_layout, rs1Of_layout, funct3Of_layout]
  | branch =>
    simp only [instrOf, encode, Instr.opcodeClass, immBOf_layoutB _ _ _ _ h]
    simp only [layoutB, rs2Of_layout, rs1Of_layout, funct3Of_layout]
  | lui | auipc =>
    simp only [instrOf, encode, Instr.opcodeClass, immUOf_layoutU _ _ h]
    simp only [layoutU, rdOf_layout]
  | jal =>
    simp only [instrOf, encode, Instr.opcodeClass, immJOf_layoutJ _ _ h]
    simp only [layoutJ, rdOf_layout]

/-- What the decoder reads off a word is an instruction: its immediate is one its format encodes. -/
theorem instrOf_wellFormed (c : OpcodeClass) (w : Word) : (instrOf c w).WellFormed := by
  cases c with
  | op | custom | amo => rfl
  | load | opImm | jalr | system | miscMem => exact immIOf_wellFormed w
  | store => exact immSOf_wellFormed w
  | branch => exact immBOf_wellFormed w
  | lui | auipc => exact immUOf_wellFormed w
  | jal => exact immJOf_wellFormed w

end Sys2Proof.Laws

namespace Sys2Proof.Machine

/-- The word that a record's raw fields cover (spec R72). -/
def Decoded.word (d : Decoded) : Word := layout d.funct7 d.rs2 d.rs1 d.funct3 d.rd d.fullOpcode

theorem layoutI_immIOf (opcode : BitVec 5) (w : Word) :
    layoutI (immIOf w) (rs1Of w) (funct3Of w) (rdOf w) (opcode ++ 0b11#2) =
      layout (funct7Of w) (rs2Of w) (rs1Of w) (funct3Of w) (rdOf w) (opcode ++ 0b11#2) :=
  (congrArg Decoded.word (recordI_immIOf opcode w) :)

theorem layoutS_immSOf (opcode : BitVec 5) (w : Word) :
    layoutS (immSOf w) (rs2Of w) (rs1Of w) (funct3Of w) (opcode ++ 0b11#2) =
      layout (funct7Of w) (rs2Of w) (rs1Of w) (funct3Of w) (rdOf w) (opcode ++ 0b11#2) :=
  (congrArg Decoded.word (recordS_immSOf opcode w) :)

theorem layoutB_immBOf (opcode : BitVec 5) (w : Word) :
    layoutB (immBOf w) (rs2Of w) (rs1Of w) (funct3Of w) (opcode ++ 0b11#2) =
      layout (funct7Of w) (rs2Of w) (rs1Of w) (funct3Of w) (rdOf w) (opcode ++ 0b11#2) :=
  (congrArg Decoded.word (recordB_immBOf opcode w) :)

theorem layoutU_immUOf (opcode : BitVec 5) (w : Word) :
    layoutU (immUOf w) (rdOf w) (opcode ++ 0b11#2) =
      layout (funct7Of w) (rs2Of w) (rs1Of w) (funct3Of w) (rdOf w) (opcode ++ 0b11#2) :=
  (congrArg Decoded.word (recordU_immUOf opcode w) :)

theorem layoutJ_immJOf (opcode : BitVec 5) (w : Word) :
    layoutJ (immJOf w) (rdOf w) (opcode ++ 0b11#2) =
      layout (funct7Of w) (rs2Of w) (rs1Of w) (funct3Of w) (rdOf w) (opcode ++ 0b11#2) :=
  (congrArg Decoded.word (recordJ_immJOf opcode w) :)

/-- The encoder lays the operands read off a word out where they were read: the same groups, under the class's full
opcode. -/
theorem encode_instrOf (slot : CustomSlot) (c : OpcodeClass) (w : Word) :
    encode slot (instrOf c w) =
      layout (funct7Of w) (rs2Of w) (rs1Of w) (funct3Of w) (rdOf w) (c.fullOpcode slot) := by
  cases c with
  | op | custom => rfl
  | amo => exact congrArg (layout · _ _ _ _ _) (Laws.funct5Of_append_bits26to25Of w)
  | load | opImm | jalr | system | miscMem => exact layoutI_immIOf _ w
  | store => exact layoutS_immSOf _ w
  | branch => exact layoutB_immBOf _ w
  | lui | auipc => exact layoutU_immUOf _ w
  | jal => exact layoutJ_immJOf _ w

/-- Settles O35: an encoded word carries its class, and its fields are the instruction's operands. -/
theorem decodeInvertsEncode : Obligations.DecodeInvertsEncode := by
  intro slot i hwf
  obtain ⟨hm, hop⟩ := Laws.encode_carries_class i slot
  have hclass : classOf slot (opcodeOf (encode slot i)) = some i.opcodeClass :=
    (Laws.classOf_eq_some_iff _ _ _).mpr hop.symm
  exact (Laws.decode_eq_ok_iff _ _ _).mpr ⟨hm, _, hclass, (Laws.instrOf_encode slot hwf).symm⟩

/-- Settles O36: the operands read off an accepted word are laid out again to its six groups, which are the word. -/
theorem encodeInvertsDecode : Obligations.EncodeInvertsDecode := by
  intro slot w i hdecode
  obtain ⟨hm, c, hc, rfl⟩ := (Laws.decode_eq_ok_iff _ _ _).mp hdecode
  have hfull : c.fullOpcode slot = fullOpcodeOf w := by
    rw [Laws.fullOpcodeOf_eq_append hm, OpcodeClass.fullOpcode, (Laws.classOf_eq_some_iff _ _ _).mp hc]
  refine ⟨Laws.instrOf_wellFormed c w, ?_⟩
  rw [encode_instrOf, hfull, Laws.layout_groups]

end Sys2Proof.Machine

/-! ### The opcode map and validation -/

namespace Sys2Proof.Laws

/-- The opcodes that no class has under the default parameter (spec R60). -/
def unmappedOpcodes : List (BitVec 5) :=
  [0b00001#5, 0b00110#5, 0b00111#5, 0b01001#5, 0b01010#5, 0b01110#5, 0b01111#5, 0b10000#5, 0b10001#5, 0b10010#5,
    0b10011#5, 0b10100#5, 0b10101#5, 0b10110#5, 0b10111#5, 0b11010#5, 0b11101#5, 0b11110#5, 0b11111#5]

theorem classOf_default_eq_none_iff (opcode : BitVec 5) :
    classOf .custom0 opcode = none ↔ opcode ∈ unmappedOpcodes := by
  revert opcode
  decide

/-- Another custom opcode than the default takes its own place in the map and leaves the default's free (spec R60). -/
theorem classOf_other_eq_none_iff {slot : CustomSlot} (h : slot ≠ .custom0) (opcode : BitVec 5) :
    classOf slot opcode = none ↔ opcode ∈ 0b00010#5 :: unmappedOpcodes ∧ opcode ≠ slot.opcode := by
  revert opcode
  cases slot with
  | custom0 => exact absurd rfl h
  | custom1 | custom2 | custom3 => decide

theorem formatOf_eq_some_iff (slot : CustomSlot) (opcode : BitVec 5) (f : Format) :
    formatOf slot opcode = some f ↔ ∃ c, classOf slot opcode = some c ∧ c.format = f := by
  simp [formatOf]

theorem formatOf_isSome_iff (slot : CustomSlot) (opcode : BitVec 5) :
    (formatOf slot opcode).isSome ↔ ∃ c, classOf slot opcode = some c := by
  rw [formatOf, Option.isSome_map, Option.isSome_iff_exists]

end Sys2Proof.Laws

namespace Sys2Proof.Machine

/-- A word is answered with a record exactly when it is legal. -/
theorem exists_answeredWith_iff (s : State) (w : Word) :
    (∃ d, AnsweredWith s w d) ↔ legal s.config.customSlot w = true := by
  constructor
  · rintro ⟨d, h⟩
    obtain ⟨hm, c, hc, -⟩ := (decodeRecord_eq_ok_iff _ _ _).mp ((answeredWith_iff _ _ _).mp h)
    exact (legal_eq_true_iff _ _).mpr ⟨hm, c, hc⟩
  · intro h
    obtain ⟨c, -, hans⟩ := answeredWith_ofWord_of_legal h
    exact ⟨_, hans⟩

/-- A word is answered with the error, which carries it, exactly when it is answered with no record (spec R98). -/
theorem step_presenting_eq_error_iff (s : State) (w : Word) :
    step (s.presenting w) = .next ((s.withInsn w).withResult (.error ⟨w⟩)) ↔ ¬∃ d, AnsweredWith s w d := by
  simp only [step_presenting, answeredWith_iff]
  rw [decodeRecord_eq_map_decode]
  cases h : decode s.config.customSlot w with
  | ok i => simp [Except.map, State.withResult]
  | error e => simp [Except.map, Laws.decode_error_word h]

/-- A word with the width marker is answered with the error exactly when its opcode has no class (spec R60). -/
theorem step_presenting_eq_error_iff_of_widthMarker (s : State) {w : Word} (hm : widthMarkerOf w = 0b11#2) :
    step (s.presenting w) = .next ((s.withInsn w).withResult (.error ⟨w⟩)) ↔
      classOf s.config.customSlot (opcodeOf w) = none := by
  rw [step_presenting_eq_error_iff, exists_answeredWith_iff, legal_eq_true_iff, and_iff_right hm, not_exists,
    Option.eq_none_iff_forall_ne_some]

/-- Settles O5: both sides are finite tables, compared opcode by opcode. -/
theorem opcodeMapIsTheTable : Obligations.OpcodeMapIsTheTable := by
  refine ⟨rfl, fun slot op => ⟨?_, fun c => (Laws.classOf_eq_some_iff slot op c).trans eq_comm⟩⟩
  revert op
  cases slot <;> decide

/-- Settles O1: a word is answered with a record exactly when `legal`, which is the three checks, and with the error
otherwise. -/
theorem acceptedExactlyWhenTheThreeChecksPass : Obligations.AcceptedExactlyWhenTheThreeChecksPass := by
  refine fun s w => ⟨?_, fun h => ⟨_, (step_presenting_eq_error_iff s w).mpr h, rfl⟩⟩
  rw [exists_answeredWith_iff, legal]
  simp only [Bool.and_eq_true, bne_iff_ne, beq_iff_eq, List.contains_iff_mem, and_assoc]
  exact Iff.rfl

/-- Settles O3: a mapped opcode is one that has a class, and a record's format is its class's. -/
theorem markerAndOpcodeAloneDecide : Obligations.MarkerAndOpcodeAloneDecide := by
  refine fun s w => ⟨?_, fun d hd => ?_, (exists_answeredWith_iff s w).mpr⟩
  · rw [legal_eq_true_iff, Laws.formatOf_isSome_iff]
    rfl
  · obtain ⟨-, c, hc, rfl⟩ := (decodeRecord_eq_ok_iff _ _ _).mp ((answeredWith_iff _ _ _).mp hd)
    exact (Laws.formatOf_eq_some_iff _ _ _).mpr ⟨c, hc, rfl⟩

/-- Settles O4: the marker and the opcode are slices of bits 6:0, so both words are legal under one class. -/
theorem otherTwentyFiveBitsNeverDecideLegality : Obligations.OtherTwentyFiveBitsNeverDecideLegality := by
  intro s w w' hm hlow hmapped
  obtain ⟨c, hc⟩ := (Laws.formatOf_isSome_iff _ _).mp hmapped
  have hslice (lo len : Nat) (h : lo + len ≤ 7) : w.extractLsb' lo len = w'.extractLsb' lo len := by
    have h' := congrArg (BitVec.extractLsb' lo len) hlow
    rwa [Laws.slice_slice _ _ _ _ _ h, Laws.slice_slice _ _ _ _ _ h, Nat.zero_add] at h'
  have hans (v : Word) (hv : widthMarkerOf v = 0b11#2) (hcv : classOf s.config.customSlot (opcodeOf v) = some c) :
      AnsweredWith s v (Decoded.ofWord c.format v) :=
    (answeredWith_iff _ _ _).mpr ((decodeRecord_eq_ok_iff _ _ _).mpr ⟨hv, c, hcv, rfl⟩)
  have hm' : widthMarkerOf w' = 0b11#2 := (hslice 0 2 (by decide)).symm.trans hm
  have hop : opcodeOf w = opcodeOf w' := hslice 2 5 (by decide)
  exact ⟨_, _, hans w hm hc, hans w' hm' (hop ▸ hc), (Laws.formatOf_eq_some_iff _ _ _).mpr ⟨c, hc, rfl⟩, rfl⟩

/-- Settles O6: the opcodes without a class, under the default parameter and under another. -/
theorem unmappedOpcodesAreIllegal : Obligations.UnmappedOpcodesAreIllegal := by
  rintro s w _ rfl hm
  rw [step_presenting_eq_error_iff_of_widthMarker s hm]
  refine ⟨fun hdefault => ?_, fun hother => ?_⟩
  · rw [hdefault]
    exact Laws.classOf_default_eq_none_iff _
  · exact Laws.classOf_other_eq_none_iff (fun h => hother (congrArg Config.mk h)) _

/-! ### Fields and immediates of a legal word -/

/-- A legal word is answered with its own record, so what the record of a word has in every format is answered. -/
theorem exists_answeredWith_of_legal {P : Decoded → Prop} {s : State} {w : Word}
    (h : legal s.config.customSlot w = true) (hP : ∀ f, P (Decoded.ofWord f w)) : ∃ d, AnsweredWith s w d ∧ P d := by
  obtain ⟨c, -, hans⟩ := answeredWith_ofWord_of_legal h
  exact ⟨_, hans, hP c.format⟩

/-- A read that the record's getter answers goes on with its value. -/
theorem step_reading_answered (s : State) (w : Word) {d : Decoded} {f : Field} {v : FieldValue}
    (h : d.read f = .ok v) :
    step ((s.answered w d).reading f) = .next ((s.answered w d).withSampled ⟨f, v⟩) :=
  (step_reading _ f).trans ((readField_eq_next_iff f (s.answered w d) _).mpr ⟨d, v, rfl, h, rfl⟩)

/-- Settles O18: each raw getter of a word's record answers its slice of the word. -/
theorem rawGettersReturnTheWordsBits : Obligations.RawGettersReturnTheWordsBits := by
  refine fun s w h => exists_answeredWith_of_legal h fun fmt f v hfv => step_reading_answered s w ?_
  simp only [List.mem_cons, List.not_mem_nil, or_false, Prod.mk.injEq] at hfv
  rcases hfv with ⟨rfl, rfl⟩ | ⟨rfl, rfl⟩ | ⟨rfl, rfl⟩ | ⟨rfl, rfl⟩ | ⟨rfl, rfl⟩ | ⟨rfl, rfl⟩ | ⟨rfl, rfl⟩ |
    ⟨rfl, rfl⟩ <;> rfl

/-- Settles O19: the sign bit of bits 31:20 is `insn[31]`. -/
theorem immediateIExtendsBits31To20 : Obligations.ImmediateIExtendsBits31To20 := by
  refine fun s w h => exists_answeredWith_of_legal h fun _ => ⟨rfl, ?low, fun k hk => ?sign, ?range⟩
  case low => exact (Laws.slice_sext _ (by decide) 0 12 (by decide)).trans BitVec.extractLsb'_eq_self
  case sign => exact Laws.immIOf_getLsbD_above w k (by omega)
  case range => exact (Laws.immISWellFormed_iff _).mp (Laws.immIOf_wellFormed w)

/-- Settles O20: the two parts stay whole in the extension, and the upper one ends in `insn[31]`. -/
theorem immediateSJoinsItsTwoParts : Obligations.ImmediateSJoinsItsTwoParts := fun _ w h =>
  exists_answeredWith_of_legal h fun _ => ⟨Laws.immSOf_hi w, Laws.immSOf_lo w, Laws.immSOf_getLsbD_above w,
    (Laws.immISWellFormed_iff _).mp (Laws.immSOf_wellFormed w)⟩

/-- Settles O21: each group by its own slice; the range ends at 4094 because the value is even. -/
theorem immediateBReordersItsBits : Obligations.ImmediateBReordersItsBits := by
  refine fun s w h => exists_answeredWith_of_legal h fun _ => ?_
  have hbit0 : (immBOf w).getLsbD 0 = (0#1).getLsbD 0 := Laws.bit_of_slice _ (0#1) 0 0 (Laws.immBOf_even w)
  have hbit11 : (immBOf w).getLsbD 11 = w.getLsbD 7 := Laws.bit_of_slice _ _ 11 7 (Laws.immBOf_bit11 w)
  obtain ⟨hrange, -⟩ := (Laws.immBWellFormed_iff _).mp (Laws.immBOf_wellFormed w)
  exact ⟨hbit0, Laws.immBOf_lo w, Laws.immBOf_hi w, hbit11, Laws.immBOf_getLsbD_above w, hrange⟩

/-- Settles O22: masking leaves the two parts the immediate joins. -/
theorem immediateUKeepsBits31To12 : Obligations.ImmediateUKeepsBits31To12 := fun _ w h =>
  exists_answeredWith_of_legal h fun _ =>
    ⟨Laws.immUOf_hi w 0 20 (by decide), Laws.immUOf_lo w, Laws.immUOf_eq_and w⟩

/-- Settles O23: each group by its own slice; the range ends at 1048574 because the value is even. -/
theorem immediateJReordersItsBits : Obligations.ImmediateJReordersItsBits := by
  refine fun s w h => exists_answeredWith_of_legal h fun _ => ?_
  have hbit0 : (immJOf w).getLsbD 0 = (0#1).getLsbD 0 := Laws.bit_of_slice _ (0#1) 0 0 (Laws.immJOf_even w)
  have hbit11 : (immJOf w).getLsbD 11 = w.getLsbD 20 := Laws.bit_of_slice _ _ 11 20 (Laws.immJOf_bit11 w)
  obtain ⟨hrange, -⟩ := (Laws.immJWellFormed_iff _).mp (Laws.immJOf_wellFormed w)
  exact ⟨hbit0, Laws.immJOf_mid w 0 10 (by decide), hbit11, Laws.immJOf_stay w 0 8 (by decide),
    Laws.immJOf_getLsbD_above w, hrange⟩

/-! ### The record of an instruction -/

/-- A record assembled from operands is the record of the word laid out from them (spec R72). -/
theorem ofFields_eq_ofWord_layout (f : Format) (opcode : BitVec 5) (funct7 : BitVec 7) (rs2 rs1 : RegIdx)
    (funct3 : BitVec 3) (rd : RegIdx) :
    Decoded.ofFields f opcode funct7 rs2 rs1 funct3 rd =
      Decoded.ofWord f (layout funct7 rs2 rs1 funct3 rd (opcode ++ 0b11#2)) := by
  have hm : widthMarkerOf (layout funct7 rs2 rs1 funct3 rd (opcode ++ 0b11#2)) = 0b11#2 := by
    rw [Laws.widthMarkerOf_layout, Laws.slice_append_lo _ _ _ _ (by decide), BitVec.extractLsb'_eq_self]
  have hop : opcodeOf (layout funct7 rs2 rs1 funct3 rd (opcode ++ 0b11#2)) = opcode := by
    rw [Laws.opcodeOf_layout, Laws.slice_append_hi _ _ _ _ (by decide), BitVec.extractLsb'_eq_self]
  rw [← ofFields_eq_ofWord f hm, hop, Laws.funct7Of_layout, Laws.rs2Of_layout, Laws.rs1Of_layout, Laws.funct3Of_layout,
    Laws.rdOf_layout]

section Immediates

variable (opcode : BitVec 5) {imm : Word} (rs2 rs1 : RegIdx) (funct3 : BitVec 3) (rd : RegIdx)

theorem recordI_getImm (h : immISWellFormed imm = true) : (recordI opcode imm rs1 funct3 rd).getImm = .ok imm := by
  rw [recordI, ofFields_eq_ofWord_layout]
  exact congrArg Except.ok (Laws.immIOf_layoutI rs1 funct3 rd _ h)

theorem recordS_getImm (h : immISWellFormed imm = true) : (recordS opcode imm rs2 rs1 funct3).getImm = .ok imm := by
  rw [recordS, ofFields_eq_ofWord_layout]
  exact congrArg Except.ok (Laws.immSOf_layoutS rs2 rs1 funct3 _ h)

theorem recordB_getImm (h : immBWellFormed imm = true) : (recordB opcode imm rs2 rs1 funct3).getImm = .ok imm := by
  rw [recordB, ofFields_eq_ofWord_layout]
  exact congrArg Except.ok (Laws.immBOf_layoutB rs2 rs1 funct3 _ h)

theorem recordU_getImm (h : immUWellFormed imm = true) : (recordU opcode imm rd).getImm = .ok imm := by
  rw [recordU, ofFields_eq_ofWord_layout]
  exact congrArg Except.ok (Laws.immUOf_layoutU rd _ h)

theorem recordJ_getImm (h : immJWellFormed imm = true) : (recordJ opcode imm rd).getImm = .ok imm := by
  rw [recordJ, ofFields_eq_ofWord_layout]
  exact congrArg Except.ok (Laws.immJOf_layoutJ rd _ h)

end Immediates

/-- A record of another opcode than AMO's has no readable `funct5` (spec R90). -/
theorem getFunct5_of_ne {d : Decoded} (h : d.opcode ≠ amoOpcode) :
    d.getFunct5 = .error (.contractFault .funct5 d.format d.opcode) := if_neg h

/-- Settles O41: the three classes answer with the R record of their operands. -/
theorem rInstructionsAnswerTheirFields : Obligations.RInstructionsAnswerTheirFields := by
  intro s funct7 funct5 low rs2 rs1 funct3 rd i opcode f7 hmem
  have hexec : exec i s = answerOk (recordR opcode f7 rs2 rs1 funct3 rd) s := by
    simp only [List.mem_cons, List.not_mem_nil, or_false, Prod.mk.injEq] at hmem
    rcases hmem with ⟨rfl, rfl, rfl⟩ | ⟨rfl, rfl, rfl⟩ | ⟨rfl, rfl, rfl⟩ <;> rfl
  exact ⟨_, hexec, rfl, rfl, rfl, rfl, rfl, rfl, rfl, rfl, rfl, rfl⟩

/-- Settles O42: the five classes answer with the I record of their operands, and none has AMO's opcode. -/
theorem iInstructionsAnswerTheirFields : Obligations.IInstructionsAnswerTheirFields := by
  intro s imm rs1 funct3 rd i opcode hlo hhi hmem
  obtain ⟨hexec, hop⟩ : exec i s = answerOk (recordI opcode imm rs1 funct3 rd) s ∧ opcode ≠ amoOpcode := by
    simp only [List.mem_cons, List.not_mem_nil, or_false, Prod.mk.injEq] at hmem
    rcases hmem with ⟨rfl, rfl⟩ | ⟨rfl, rfl⟩ | ⟨rfl, rfl⟩ | ⟨rfl, rfl⟩ | ⟨rfl, rfl⟩ <;> exact ⟨rfl, by decide⟩
  have himm := recordI_getImm opcode rs1 funct3 rd ((Laws.immISWellFormed_iff imm).mpr ⟨hlo, hhi⟩)
  exact ⟨_, hexec, rfl, rfl, rfl, rfl, rfl, rfl, himm, rfl, rfl, getFunct5_of_ne hop⟩

/-- Settles O43: the answer is the S record, whose immediate is the one laid out. -/
theorem storeAnswersItsFields : Obligations.StoreAnswersItsFields := by
  intro s imm rs2 rs1 funct3 hlo hhi
  have himm := recordS_getImm 0b01000#5 rs2 rs1 funct3 ((Laws.immISWellFormed_iff imm).mpr ⟨hlo, hhi⟩)
  exact ⟨_, rfl, rfl, rfl, rfl, rfl, rfl, rfl, himm, rfl, rfl, getFunct5_of_ne (show 0b01000#5 ≠ amoOpcode by decide)⟩

/-- Settles O44: the answer is the B record, whose immediate is the one laid out. -/
theorem branchAnswersItsFields : Obligations.BranchAnswersItsFields := by
  intro s imm rs2 rs1 funct3 hlo hhi heven
  have himm := recordB_getImm 0b11000#5 rs2 rs1 funct3 ((Laws.immBWellFormed_iff imm).mpr ⟨⟨hlo, hhi⟩, heven⟩)
  exact ⟨_, rfl, rfl, rfl, rfl, rfl, rfl, rfl, himm, rfl, rfl, getFunct5_of_ne (show 0b11000#5 ≠ amoOpcode by decide)⟩

/-- Settles O45: both classes answer with the U record of their operands, and neither has AMO's opcode. -/
theorem uInstructionsAnswerTheirFields : Obligations.UInstructionsAnswerTheirFields := by
  intro s imm rd i opcode hlow hmem
  obtain ⟨hexec, hop⟩ : exec i s = answerOk (recordU opcode imm rd) s ∧ opcode ≠ amoOpcode := by
    simp only [List.mem_cons, List.not_mem_nil, or_false, Prod.mk.injEq] at hmem
    rcases hmem with ⟨rfl, rfl⟩ | ⟨rfl, rfl⟩ <;> exact ⟨rfl, by decide⟩
  have himm := recordU_getImm opcode rd ((Laws.immUWellFormed_iff imm).mpr hlow)
  exact ⟨_, hexec, rfl, rfl, rfl, rfl, himm, rfl, rfl, rfl, rfl, getFunct5_of_ne hop⟩

/-- Settles O46: the answer is the J record, whose immediate is the one laid out. -/
theorem jalAnswersItsFields : Obligations.JalAnswersItsFields := by
  intro s imm rd hlo hhi heven
  have himm := recordJ_getImm 0b11011#5 rd ((Laws.immJWellFormed_iff imm).mpr ⟨⟨hlo, hhi⟩, heven⟩)
  exact ⟨_, rfl, rfl, rfl, rfl, rfl, himm, rfl, rfl, rfl, rfl, getFunct5_of_ne (show 0b11011#5 ≠ amoOpcode by decide)⟩

end Sys2Proof.Machine

/-! ## Proofs of the statements on the decode function (spec/40_decode.md)

A presented word is answered with `decodeRecord` of it (`step_presenting`), so these are facts about `decodeRecord`, about
the record of a word, and about the meaning of one instruction. -/

namespace Sys2Proof.Machine

/-! ### The answer to a word -/

/-- The spec's `decode` has two results: a record, or the error that carries the word (spec R68). -/
theorem decodeRecord_ok_or_error (slot : CustomSlot) (w : Word) :
    (∃ d, decodeRecord slot w = .ok d) ∨ decodeRecord slot w = .error ⟨w⟩ := by
  rw [decodeRecord_eq_map_decode]
  cases h : decode slot w with
  | ok i => exact .inl ⟨_, rfl⟩
  | error e => exact .inr (by rw [Laws.decode_error_word h]; rfl)

/-- A word with the width marker and the opcode of a class is answered with its own record, in the class's format. -/
theorem answeredWith_ofWord_of_opcode {s : State} {w : Word} (c : OpcodeClass) (hm : widthMarkerOf w = 0b11#2)
    (hop : c.opcode s.config.customSlot = opcodeOf w) : AnsweredWith s w (Decoded.ofWord c.format w) :=
  (answeredWith_iff _ _ _).mpr
    ((decodeRecord_eq_ok_iff _ _ _).mpr ⟨hm, c, (Laws.classOf_eq_some_iff _ _ _).mpr hop, rfl⟩)

/-- The raw fields of an answered record cover the word it answers (spec R72). -/
theorem AnsweredWith.word_eq {s : State} {w : Word} {d : Decoded} (h : AnsweredWith s w d) : d.word = w := by
  obtain ⟨-, c, -, rfl⟩ := (decodeRecord_eq_ok_iff _ _ _).mp ((answeredWith_iff _ _ _).mp h)
  exact Laws.layout_groups w

/-! ### One instruction's meaning -/

/-- Every instruction answers with a record that has its class's opcode and format. -/
theorem exec_answers_its_class (i : Instr) (s : State) :
    ∃ d, exec i s = answerOk d s ∧ d.opcode = i.opcodeClass.opcode s.config.customSlot ∧
      d.format = i.opcodeClass.format := by
  cases i <;> exact ⟨_, rfl, rfl, rfl⟩

/-- The block with a word on its input runs the instruction the word decodes to. -/
theorem settle_of_decode_ok {s : State} {w : Word} {i : Instr} (h : decode s.config.customSlot w = .ok i) :
    settle w s = exec i (s.withInsn w) := by
  rw [settle, h]

/-- A step with no action left answers the word on the input. -/
theorem step_of_idle {s : State} (h : s.stimuli = []) : step s = settle s.insn s := by
  rw [step, h]

/-- A step whose next action presents a word answers it, the action off the queue. -/
theorem step_of_present {s : State} {w : Word} {rest : List Stimulus} (h : s.stimuli = .present w :: rest) :
    step s = settle w (s.withStimuli rest) := by
  rw [step, h]
  rfl

/-! ### The statements -/

/-- Settles O8: the step is `decodeRecord` on every word; of the two examples, one carries OP_IMM's opcode and the other
fails check 1. -/
theorem presentedWordIsAnsweredByDecode : Obligations.PresentedWordIsAnsweredByDecode := by
  refine ⟨fun s w => ⟨step_presenting s w, decodeRecord_ok_or_error _ w⟩, fun s => ?opImm, fun s => ?allZero⟩
  case opImm =>
    have hans : AnsweredWith s 0x00000093#32 (Decoded.ofWord .I 0x00000093#32) :=
      answeredWith_ofWord_of_opcode .opImm (by decide) (show 0b00100#5 = opcodeOf 0x00000093#32 by decide)
    exact ⟨_, hans, rfl, by decide⟩
  case allZero =>
    have hzero : decodeRecord s.config.customSlot 0x00000000#32 = .error ⟨0x00000000#32⟩ := if_pos (.inl rfl)
    exact ⟨_, step_presenting s _, hzero⟩

/-- Settles O9: both states answer with `decodeRecord` of the word under the one parameter. -/
theorem answersDependOnTheWordAlone : Obligations.AnswersDependOnTheWordAlone := by
  intro s t w hconfig
  refine ⟨decodeRecord s.config.customSlot w, step_presenting s w, ?_⟩
  rw [hconfig]
  exact step_presenting t w

/-- Settles O13: both words are the one the record's raw fields cover. -/
theorem recordDeterminesTheWord : Obligations.RecordDeterminesTheWord :=
  fun _ _ _ h => ⟨h.word_eq.symm, fun _ h' => h'.word_eq.symm.trans h.word_eq⟩

/-- Settles O40: every meaning is an answer with a record of its class, and answering writes the answer alone. -/
theorem everyInstructionCompletesAndOnlyAnswers : Obligations.EveryInstructionCompletesAndOnlyAnswers := by
  intro i s
  obtain ⟨d, hexec, hop, hformat⟩ := exec_answers_its_class i s
  exact ⟨s.withResult (.ok d), d, hexec, rfl, hop, hformat, rfl, rfl, rfl, rfl⟩

/-- Settles O39: whether the word is presented, queued or resting on the input, the step settles it. -/
theorem stepRunsTheDecodedInstruction : Obligations.StepRunsTheDecodedInstruction := by
  intro s w i hdecode
  refine ⟨settle_of_decode_ok hdecode, fun rest hqueued => ?queued, fun hidle hinsn => ?resting⟩
  case queued => exact (step_of_present hqueued).trans (settle_of_decode_ok hdecode)
  case resting =>
    subst hinsn
    exact (step_of_idle hidle).trans (settle_of_decode_ok hdecode)

end Sys2Proof.Machine

/-! ## Proof of the statement on R-format words (spec/41_r_format.md)

Bits 6:0 of a word name its class, which settles the answer: the word's own record in the class's format. -/

namespace Sys2Proof.Machine

/-! ### A word that carries a class's full opcode -/

section FullOpcode

variable {slot : CustomSlot} {w : Word} {c : OpcodeClass}

/-- A word with a class's full opcode has the class's opcode (spec R43). -/
theorem opcodeOf_of_fullOpcodeOf (h : fullOpcodeOf w = c.fullOpcode slot) : opcodeOf w = c.opcode slot := by
  have hslice : (fullOpcodeOf w).extractLsb' 2 5 = opcodeOf w := Laws.slice_slice w 0 7 2 5 (by decide)
  rw [← hslice, h, Laws.fullOpcode_opcode]

/-- A word with a class's full opcode has the width marker (spec R41). -/
theorem widthMarkerOf_of_fullOpcodeOf (h : fullOpcodeOf w = c.fullOpcode slot) : widthMarkerOf w = 0b11#2 := by
  have hslice : (fullOpcodeOf w).extractLsb' 0 2 = widthMarkerOf w := Laws.slice_slice w 0 7 0 2 (by decide)
  rw [← hslice, h, Laws.fullOpcode_widthMarker]

end FullOpcode

/-- A word with a class's full opcode is answered with its own record, in the class's format. -/
theorem answeredWith_ofWord_of_fullOpcode {s : State} {w : Word} (c : OpcodeClass)
    (h : fullOpcodeOf w = c.fullOpcode s.config.customSlot) : AnsweredWith s w (Decoded.ofWord c.format w) :=
  answeredWith_ofWord_of_opcode c (widthMarkerOf_of_fullOpcodeOf h) (opcodeOf_of_fullOpcodeOf h).symm

/-! ### The three classes of format R -/

/-- No custom slot has AMO's opcode (spec R58). -/
theorem customSlot_opcode_ne_amoOpcode (slot : CustomSlot) : slot.opcode ≠ amoOpcode := by
  cases slot <;> decide

/-- The opcodes of OP, CUSTOM and AMO are those of classes of format R, and AMO's alone makes `funct5` valid (spec R73
to R75). -/
theorem exists_rClass_of_mem {slot : CustomSlot} {opcode : BitVec 5} {funct5Valid : BitVec 1}
    (h : (opcode, funct5Valid) ∈ [(0b01100#5, 0#1), (slot.opcode, 0#1), (0b01011#5, 1#1)]) :
    ∃ c : OpcodeClass, c.opcode slot = opcode ∧ c.format = .R ∧ funct5Valid = strobe (opcode == amoOpcode) := by
  simp only [List.mem_cons, List.not_mem_nil, or_false, Prod.mk.injEq] at h
  rcases h with ⟨rfl, rfl⟩ | ⟨rfl, rfl⟩ | ⟨rfl, rfl⟩
  · exact ⟨.op, rfl, rfl, rfl⟩
  · have hne := beq_false_of_ne (customSlot_opcode_ne_amoOpcode slot)
    exact ⟨.custom, rfl, rfl, ((strobe_eq_zero_iff _).mpr hne).symm⟩
  · exact ⟨.amo, rfl, rfl, rfl⟩

/-- Settles O47: bits 6:0 name a class of format R, so the answer is the word's own R record; of the three opcodes AMO's
alone meets the contract of `funct5`. -/
theorem rWordsAreAnsweredByTheirClassRule : Obligations.RWordsAreAnsweredByTheirClassRule := by
  refine ⟨fun s w opcode funct5Valid hmem hfull => ?word, fun s => ?op, fun s hdefault => ?custom, fun s => ?amo⟩
  case word =>
    obtain ⟨c, rfl, hformat, rfl⟩ := exists_rClass_of_mem hmem
    have hans : AnsweredWith s w (Decoded.ofWord .R w) := hformat ▸ answeredWith_ofWord_of_fullOpcode c hfull
    have hop : opcodeOf w = c.opcode s.config.customSlot := opcodeOf_of_fullOpcodeOf hfull
    simp only [strobe_eq_one_iff, beq_iff_eq, ← hop] at hfull ⊢
    exact ⟨_, hans, rfl, rfl, hfull, rfl, rfl, rfl, rfl, rfl, rfl, rfl, rfl, rfl, rfl, rfl, rfl, rfl, rfl, rfl, rfl,
      rfl⟩
  case op =>
    have hfull : fullOpcodeOf 0x407302B3#32 = 0b01100#5 ++ 0b11#2 := by decide
    exact ⟨_, answeredWith_ofWord_of_fullOpcode .op hfull, by decide⟩
  case custom =>
    have hfull : fullOpcodeOf 0xFE41A08B#32 = OpcodeClass.custom.fullOpcode s.config.customSlot := by
      rw [hdefault]
      decide
    exact ⟨_, answeredWith_ofWord_of_fullOpcode .custom hfull, by decide⟩
  case amo =>
    have hfull : fullOpcodeOf 0x06C5A52F#32 = 0b01011#5 ++ 0b11#2 := by decide
    exact ⟨_, answeredWith_ofWord_of_fullOpcode .amo hfull, by decide⟩

end Sys2Proof.Machine

/-! ## Proof of the statement on I-format words (spec/42_i_format.md)

Bits 6:0 of a word name one of the five classes, so the answer is the word's own I record. None of the five opcodes is
AMO's, so every one of these words breaks the contract of `funct5`. -/

namespace Sys2Proof.Machine

/-- The opcodes of LOAD, OP_IMM, JALR, SYSTEM and MISC_MEM are those of classes of format I, whatever the parameter, and
none is AMO's (spec R76 to R80). -/
theorem exists_iClass_of_mem (slot : CustomSlot) {opcode : BitVec 5}
    (h : opcode ∈ [0b00000#5, 0b00100#5, 0b11001#5, 0b11100#5, 0b00011#5]) :
    ∃ c : OpcodeClass, c.opcode slot = opcode ∧ c.format = .I ∧ opcode ≠ amoOpcode := by
  simp only [List.mem_cons, List.not_mem_nil, or_false] at h
  rcases h with rfl | rfl | rfl | rfl | rfl
  · exact ⟨.load, rfl, rfl, by decide⟩
  · exact ⟨.opImm, rfl, rfl, by decide⟩
  · exact ⟨.jalr, rfl, rfl, by decide⟩
  · exact ⟨.system, rfl, rfl, by decide⟩
  · exact ⟨.miscMem, rfl, rfl, by decide⟩

/-- In every state a word with the full opcode of an I-format class is answered with its own I record, whose opcode is
that class's and not AMO's. -/
theorem answeredWith_ofWord_I_of_mem (s : State) {w : Word} {opcode : BitVec 5}
    (hmem : opcode ∈ [0b00000#5, 0b00100#5, 0b11001#5, 0b11100#5, 0b00011#5])
    (hfull : fullOpcodeOf w = opcode ++ 0b11#2) :
    AnsweredWith s w (Decoded.ofWord .I w) ∧ opcodeOf w = opcode ∧ opcode ≠ amoOpcode := by
  obtain ⟨c, rfl, hformat, hne⟩ := exists_iClass_of_mem s.config.customSlot hmem
  exact ⟨hformat ▸ answeredWith_ofWord_of_fullOpcode c hfull, opcodeOf_of_fullOpcodeOf hfull, hne⟩

/-- Settles O48: bits 6:0 name a class of format I, so the answer is the word's own I record, whose one unreadable field
is `funct5`; each example is such a word, and its fields are slices of it. -/
theorem iWordsAreAnsweredByTheirClassRule : Obligations.IWordsAreAnsweredByTheirClassRule := by
  refine ⟨fun s w opcode hmem hfull => ?word, fun s w funct3 rd rs1 imm hmem => ?examples⟩
  case word =>
    obtain ⟨hans, rfl, hne⟩ := answeredWith_ofWord_I_of_mem s hmem hfull
    have hfunct5Valid : strobe (opcodeOf w == amoOpcode) = 0#1 := (strobe_eq_zero_iff _).mpr (beq_false_of_ne hne)
    exact ⟨_, hans, rfl, rfl, hfull, rfl, rfl, rfl, rfl, rfl, rfl, getFunct5_of_ne hne, rfl, rfl, rfl, rfl,
      hfunct5Valid⟩
  case examples =>
    have hclass : opcodeOf w ∈ [0b00000#5, 0b00100#5, 0b11001#5, 0b11100#5, 0b00011#5] ∧
        fullOpcodeOf w = opcodeOf w ++ 0b11#2 ∧ funct3Of w = funct3 ∧ rdOf w = rd ∧ rs1Of w = rs1 ∧
        immIOf w = imm := by
      simp only [List.mem_cons, List.not_mem_nil, or_false, Prod.mk.injEq] at hmem
      rcases hmem with ⟨rfl, rfl, rfl, rfl, rfl⟩ | ⟨rfl, rfl, rfl, rfl, rfl⟩ | ⟨rfl, rfl, rfl, rfl, rfl⟩ |
        ⟨rfl, rfl, rfl, rfl, rfl⟩ | ⟨rfl, rfl, rfl, rfl, rfl⟩ | ⟨rfl, rfl, rfl, rfl, rfl⟩ |
        ⟨rfl, rfl, rfl, rfl, rfl⟩ | ⟨rfl, rfl, rfl, rfl, rfl⟩ | ⟨rfl, rfl, rfl, rfl, rfl⟩ |
        ⟨rfl, rfl, rfl, rfl, rfl⟩ <;> decide
    obtain ⟨hopcode, hfull, hfunct3, hrd, hrs1, himm⟩ := hclass
    exact ⟨_, (answeredWith_ofWord_I_of_mem s hopcode hfull).1, hfunct3, hrd, hrs1, congrArg Except.ok himm⟩

end Sys2Proof.Machine

/-! ## Proof of the statement on S-format words (spec/43_s_format.md)

Bits 6:0 of a word name STORE, so the answer is the word's own S record, with STORE's opcode. That opcode is not AMO's, so
every one of these words breaks the contract of `funct5`. -/

namespace Sys2Proof.Machine

/-- In every state a word with STORE's full opcode is answered with its own S record, whose opcode is STORE's (spec
R81). -/
theorem answeredWith_ofWord_S (s : State) {w : Word} (hfull : fullOpcodeOf w = 0x23#7) :
    AnsweredWith s w (Decoded.ofWord .S w) ∧ opcodeOf w = 0b01000#5 := by
  have hstore : fullOpcodeOf w = OpcodeClass.store.fullOpcode s.config.customSlot :=
    hfull.trans (show 0x23#7 = 0b01000#5 ++ 0b11#2 by decide)
  exact ⟨answeredWith_ofWord_of_fullOpcode .store hstore, opcodeOf_of_fullOpcodeOf hstore⟩

/-- Settles O49: bits 6:0 name STORE, so the answer is the word's own S record, whose one unreadable field is `funct5`;
each example is a STORE word, and its fields are slices of it. -/
theorem storeWordsAreAnsweredByTheirRule : Obligations.StoreWordsAreAnsweredByTheirRule := by
  refine ⟨fun s w hfull => ?word, fun s w funct3 rd rs1 rs2 imm hmem => ?examples⟩
  case word =>
    obtain ⟨hans, hop⟩ := answeredWith_ofWord_S s hfull
    have hne : opcodeOf w ≠ amoOpcode := by
      rw [hop]
      decide
    have hfunct5 : (Decoded.ofWord .S w).getFunct5 = .error (.contractFault .funct5 .S 0b01000#5) :=
      hop ▸ getFunct5_of_ne hne
    have hfunct5Valid : strobe (opcodeOf w == amoOpcode) = 0#1 := (strobe_eq_zero_iff _).mpr (beq_false_of_ne hne)
    exact ⟨_, hans, rfl, hop, hfull, rfl, rfl, rfl, rfl, rfl, rfl, hfunct5, rfl, rfl, rfl, rfl, hfunct5Valid⟩
  case examples =>
    have hfields : fullOpcodeOf w = 0x23#7 ∧ funct3Of w = funct3 ∧ rdOf w = rd ∧ rs1Of w = rs1 ∧ rs2Of w = rs2 ∧
        immSOf w = imm := by
      simp only [List.mem_cons, List.not_mem_nil, or_false, Prod.mk.injEq] at hmem
      rcases hmem with ⟨rfl, rfl, rfl, rfl, rfl, rfl⟩ | ⟨rfl, rfl, rfl, rfl, rfl, rfl⟩ |
        ⟨rfl, rfl, rfl, rfl, rfl, rfl⟩ <;> decide
    obtain ⟨hfull, hfunct3, hrd, hrs1, hrs2, himm⟩ := hfields
    exact ⟨_, (answeredWith_ofWord_S s hfull).1, hfunct3, hrd, hrs1, hrs2, congrArg Except.ok himm⟩

end Sys2Proof.Machine

/-! ## Proof of the statement on B-format words (spec/44_b_format.md)

Bits 6:0 of a word name BRANCH, so the answer is the word's own B record; as for every class but AMO, `funct5` is not
readable. The offset is even because its lowest group is the constant 0. -/

namespace Sys2Proof.Machine

/-- A word with the full opcode of a class whose opcode is not AMO's is answered with its own record, which breaks the
contract of `funct5` and holds its strobe at 0 (spec R24, R90). -/
theorem answeredWith_ofWord_without_funct5 {s : State} {w : Word} (c : OpcodeClass) {opcode : BitVec 5}
    (hop : c.opcode s.config.customSlot = opcode) (hne : opcode ≠ amoOpcode)
    (hfull : fullOpcodeOf w = opcode ++ 0b11#2) :
    AnsweredWith s w (Decoded.ofWord c.format w) ∧ opcodeOf w = opcode ∧
      (Decoded.ofWord c.format w).getFunct5 = .error (.contractFault .funct5 c.format opcode) ∧
      funct5ValidOf (Decoded.ofWord c.format w) = 0#1 := by
  subst hop
  have hopcode : opcodeOf w = c.opcode s.config.customSlot := opcodeOf_of_fullOpcodeOf hfull
  have hne' : (Decoded.ofWord c.format w).opcode ≠ amoOpcode := hopcode.trans_ne hne
  exact ⟨answeredWith_ofWord_of_fullOpcode c hfull, hopcode, hopcode ▸ getFunct5_of_ne hne',
    (strobe_eq_zero_iff _).mpr (beq_false_of_ne hne')⟩

/-- The B immediate of every word has bit 0 clear (spec R52, R82). -/
theorem immBOf_getLsbD_zero (w : Word) : (immBOf w).getLsbD 0 = false :=
  Laws.bit_of_slice _ (0#1) 0 0 (Laws.immBOf_even w)

/-- In every state a word with BRANCH's full opcode is answered with its own B record, without a readable `funct5` (spec
R82). -/
theorem answeredWith_ofWord_B (s : State) {w : Word} (hfull : fullOpcodeOf w = 0x63#7) :
    AnsweredWith s w (Decoded.ofWord .B w) ∧ opcodeOf w = 0b11000#5 ∧
      (Decoded.ofWord .B w).getFunct5 = .error (.contractFault .funct5 .B 0b11000#5) ∧
      funct5ValidOf (Decoded.ofWord .B w) = 0#1 :=
  answeredWith_ofWord_without_funct5 .branch rfl (by decide)
    (hfull.trans (show 0x63#7 = 0b11000#5 ++ 0b11#2 by decide))

/-- Settles O50: bits 6:0 name BRANCH, so the answer is the word's own B record, whose one unreadable field is `funct5`;
each example is a BRANCH word, and its fields are slices of it. -/
theorem branchWordsAreAnsweredByTheirRule : Obligations.BranchWordsAreAnsweredByTheirRule := by
  refine ⟨fun s w hfull => ?word, fun s w funct3 rs1 rs2 imm hmem => ?examples⟩
  case word =>
    obtain ⟨hans, hop, hfunct5, hfunct5Valid⟩ := answeredWith_ofWord_B s hfull
    exact ⟨_, hans, rfl, hop, hfull, rfl, rfl, rfl, rfl, rfl, rfl, immBOf_getLsbD_zero w, hfunct5, rfl, rfl, rfl, rfl,
      hfunct5Valid⟩
  case examples =>
    have hfields : fullOpcodeOf w = 0x63#7 ∧ funct3Of w = funct3 ∧ rs1Of w = rs1 ∧ rs2Of w = rs2 ∧
        immBOf w = imm := by
      simp only [List.mem_cons, List.not_mem_nil, or_false, Prod.mk.injEq] at hmem
      rcases hmem with ⟨rfl, rfl, rfl, rfl, rfl⟩ | ⟨rfl, rfl, rfl, rfl, rfl⟩ | ⟨rfl, rfl, rfl, rfl, rfl⟩ |
        ⟨rfl, rfl, rfl, rfl, rfl⟩ | ⟨rfl, rfl, rfl, rfl, rfl⟩ <;> decide
    obtain ⟨hfull, hfunct3, hrs1, hrs2, himm⟩ := hfields
    exact ⟨_, (answeredWith_ofWord_B s hfull).1, hfunct3, hrs1, hrs2, congrArg Except.ok himm⟩

end Sys2Proof.Machine

/-! ## Proof of the statement on U-format words (spec/45_u_format.md)

Bits 6:0 of a word name LUI or AUIPC, so the answer is the word's own U record; neither opcode is AMO's. The immediate is
the word with its low 12 bits masked off, with no extension step. -/

namespace Sys2Proof.Machine

/-- The opcodes of LUI and AUIPC are those of classes of format U, whatever the parameter, and neither is AMO's (spec R83,
R84). -/
theorem exists_uClass_of_mem (slot : CustomSlot) {opcode : BitVec 5} (h : opcode ∈ [0b01101#5, 0b00101#5]) :
    ∃ c : OpcodeClass, c.opcode slot = opcode ∧ c.format = .U ∧ opcode ≠ amoOpcode := by
  simp only [List.mem_cons, List.not_mem_nil, or_false] at h
  rcases h with rfl | rfl
  · exact ⟨.lui, rfl, rfl, by decide⟩
  · exact ⟨.auipc, rfl, rfl, by decide⟩

/-- In every state a word with the full opcode of LUI or AUIPC is answered with its own U record, without a readable
`funct5` (spec R83, R84). -/
theorem answeredWith_ofWord_U_of_mem (s : State) {w : Word} {opcode : BitVec 5}
    (hmem : opcode ∈ [0b01101#5, 0b00101#5]) (hfull : fullOpcodeOf w = opcode ++ 0b11#2) :
    AnsweredWith s w (Decoded.ofWord .U w) ∧ opcodeOf w = opcode ∧
      (Decoded.ofWord .U w).getFunct5 = .error (.contractFault .funct5 .U opcode) ∧
      funct5ValidOf (Decoded.ofWord .U w) = 0#1 := by
  obtain ⟨c, hop, hformat, hne⟩ := exists_uClass_of_mem s.config.customSlot hmem
  exact hformat ▸ answeredWith_ofWord_without_funct5 c hop hne hfull

/-- Settles O51: bits 6:0 name a class of format U, so the answer is the word's own U record, whose one unreadable field is
`funct5` and whose immediate is the masked word; each example is such a word, and its fields are slices of it. -/
theorem uWordsAreAnsweredByTheirClassRule : Obligations.UWordsAreAnsweredByTheirClassRule := by
  refine ⟨fun s w opcode hmem hfull => ?word, fun s w rd funct3 rs1 rs2 imm hmem => ?examples⟩
  case word =>
    obtain ⟨hans, hop, hfunct5, hfunct5Valid⟩ := answeredWith_ofWord_U_of_mem s hmem hfull
    have himm : immUOf w = w &&& 0xFFFFF000#32 := Laws.immUOf_eq_and w
    exact ⟨_, hans, rfl, hop, hfull, rfl, rfl, rfl, rfl, rfl, congrArg Except.ok himm, hfunct5, rfl, rfl, himm, rfl,
      hfunct5Valid⟩
  case examples =>
    have hfields : opcodeOf w ∈ [0b01101#5, 0b00101#5] ∧ fullOpcodeOf w = opcodeOf w ++ 0b11#2 ∧ rdOf w = rd ∧
        funct3Of w = funct3 ∧ rs1Of w = rs1 ∧ rs2Of w = rs2 ∧ immUOf w = imm := by
      simp only [List.mem_cons, List.not_mem_nil, or_false, Prod.mk.injEq] at hmem
      rcases hmem with ⟨rfl, rfl, rfl, rfl, rfl, rfl⟩ | ⟨rfl, rfl, rfl, rfl, rfl, rfl⟩ |
        ⟨rfl, rfl, rfl, rfl, rfl, rfl⟩ <;> decide
    obtain ⟨hopcode, hfull, hrd, hfunct3, hrs1, hrs2, himm⟩ := hfields
    exact ⟨_, (answeredWith_ofWord_U_of_mem s hopcode hfull).1, hrd, hfunct3, hrs1, hrs2, congrArg Except.ok himm⟩

end Sys2Proof.Machine

/-! ## Proof of the statement on J-format words (spec/46_j_format.md)

Bits 6:0 of a word name JAL, so the answer is the word's own J record; as for every class but AMO, `funct5` is not
readable. The offset is even because its lowest group is the constant 0. -/

namespace Sys2Proof.Machine

/-- The J immediate of every word has bit 0 clear (spec R54, R85). -/
theorem immJOf_getLsbD_zero (w : Word) : (immJOf w).getLsbD 0 = false :=
  Laws.bit_of_slice _ (0#1) 0 0 (Laws.immJOf_even w)

/-- In every state a word with JAL's full opcode is answered with its own J record, without a readable `funct5` (spec
R85). -/
theorem answeredWith_ofWord_J (s : State) {w : Word} (hfull : fullOpcodeOf w = 0x6F#7) :
    AnsweredWith s w (Decoded.ofWord .J w) ∧ opcodeOf w = 0b11011#5 ∧
      (Decoded.ofWord .J w).getFunct5 = .error (.contractFault .funct5 .J 0b11011#5) ∧
      funct5ValidOf (Decoded.ofWord .J w) = 0#1 :=
  answeredWith_ofWord_without_funct5 .jal rfl (by decide)
    (hfull.trans (show 0x6F#7 = 0b11011#5 ++ 0b11#2 by decide))

/-- Settles O52: bits 6:0 name JAL, so the answer is the word's own J record, whose one unreadable field is `funct5`; each
example is a JAL word, and its fields are slices of it. -/
theorem jalWordsAreAnsweredByTheirRule : Obligations.JalWordsAreAnsweredByTheirRule := by
  refine ⟨fun s w hfull => ?word, fun s w rd imm hmem => ?examples⟩
  case word =>
    obtain ⟨hans, hop, hfunct5, hfunct5Valid⟩ := answeredWith_ofWord_J s hfull
    exact ⟨_, hans, rfl, hop, hfull, rfl, rfl, rfl, rfl, rfl, rfl, immJOf_getLsbD_zero w, hfunct5, rfl, rfl, rfl, rfl,
      hfunct5Valid⟩
  case examples =>
    have hfields : fullOpcodeOf w = 0x6F#7 ∧ rdOf w = rd ∧ immJOf w = imm := by
      simp only [List.mem_cons, List.not_mem_nil, or_false, Prod.mk.injEq] at hmem
      rcases hmem with ⟨rfl, rfl, rfl⟩ | ⟨rfl, rfl, rfl⟩ | ⟨rfl, rfl, rfl⟩ | ⟨rfl, rfl, rfl⟩ <;> decide
    obtain ⟨hfull, hrd, himm⟩ := hfields
    exact ⟨_, (answeredWith_ofWord_J s hfull).1, hrd, congrArg Except.ok himm⟩

end Sys2Proof.Machine

/-! ## Proofs of the statements on field access (spec/47_field_access.md)

A read of an answered word is its record's getter (`step_reading`), and only a read can stop a step
(`step_eq_iff_read_of_stops`); the rest are facts about the getters and about the diagnostic selection. -/

namespace Sys2Proof.Machine

/-! ### What stops a step -/

/-- A step that does not go on is a read, and stops as the read does: a word on the input is always answered. -/
theorem step_eq_iff_read_of_stops (s : State) {o : Host.Outcome State Fault Refusal} (hstops : ∀ t, o ≠ .next t) :
    step s = o ↔ ∃ f rest, s.stimuli = .read f :: rest ∧ readField f (s.withStimuli rest) = o := by
  constructor
  · intro h
    rcases step_cases s with ⟨-, hstep⟩ | ⟨w, rest, -, hstep⟩ | ⟨f, rest, hq, hstep⟩
    · obtain ⟨r, hr⟩ := settle_answers s.insn s
      exact absurd (h.symm.trans (hstep.trans hr)) (hstops _)
    · obtain ⟨r, hr⟩ := settle_answers w (s.withStimuli rest)
      exact absurd (h.symm.trans (hstep.trans hr)) (hstops _)
    · exact ⟨f, rest, hq, hstep.symm.trans h⟩
  · rintro ⟨f, rest, hq, hread⟩
    exact (step_of_read hq).trans hread

/-- Settles O26: only a read can fault, and it faults where its getter does. -/
theorem stepFaultsExactlyOnABrokenContract : Obligations.StepFaultsExactlyOnABrokenContract := by
  intro s e
  rw [step_eq_iff_read_of_stops s (by simp)]
  simp only [readField_eq_fault_iff, withStimuli_result, read_eq_error_iff, exists_and_left]
  exact Iff.rfl

/-- Settles O27: only a read can be refused, and it is refused where there is no record. -/
theorem stepRefusesExactlyAReadWithoutARecord : Obligations.StepRefusesExactlyAReadWithoutARecord := by
  intro s r
  rw [step_eq_iff_read_of_stops s (by simp)]
  simp only [readField_eq_refused_iff, withStimuli_result, exists_and_left, exists_and_right]

/-! ### The two contracts, after a legal word -/

/-- A read that the record's getter faults on stops the step with that fault. -/
theorem step_reading_faulted (s : State) (w : Word) {d : Decoded} {f : Field} {e : Fault} (h : d.read f = .error e) :
    step ((s.answered w d).reading f) = .fault e :=
  (step_reading_eq_fault_iff rfl f e).mpr h

/-- The record of a word with AMO's opcode answers `funct5` with bits 31:27 (spec R46, R90). -/
theorem getFunct5_ofWord_of_amo (f : Format) {w : Word} (h : opcodeOf w = amoOpcode) :
    (Decoded.ofWord f w).getFunct5 = .ok (funct5Of w) := if_pos h

/-- Settles O24: the map gives the opcode the record's format, and the getter selects by that format. -/
theorem immediateReadIsTheFormatsOwn : Obligations.ImmediateReadIsTheFormatsOwn := by
  intro s w hlegal
  obtain ⟨c, hc, hans⟩ := answeredWith_ofWord_of_legal hlegal
  have hformat : formatOf s.config.customSlot (w.extractLsb' 2 5) = some c.format :=
    (Laws.formatOf_eq_some_iff _ _ _).mpr ⟨c, hc, rfl⟩
  refine ⟨_, hans, ?_⟩
  rw [hformat]
  cases c.format with
  | R => exact step_reading_faulted s w rfl
  | I | S | B | U | J => exact step_reading_answered s w rfl

/-- Settles O25: the contract is on the opcode, which is the word's in a record of any format. -/
theorem funct5ReadOnlyForAmo : Obligations.Funct5ReadOnlyForAmo := by
  refine fun s w hlegal => exists_answeredWith_of_legal hlegal fun f => ?_
  split
  case isTrue hop =>
    exact step_reading_answered s w (congrArg (Except.map FieldValue.bits5) (getFunct5_ofWord_of_amo f hop))
  case isFalse hop => exact step_reading_faulted s w ((read_eq_error_iff _ _ _).mpr ⟨.inr ⟨rfl, hop⟩, rfl⟩)

/-- Settles O29: bits 6:0 name AMO, so the answer is the word's own record, and each part of `funct7` is a slice of the
word. -/
theorem amoFunct7OverlapsFunct5 : Obligations.AmoFunct7OverlapsFunct5 := by
  intro s w hfull
  have hamo : fullOpcodeOf w = OpcodeClass.amo.fullOpcode s.config.customSlot :=
    hfull.trans (show 0x2F#7 = 0b01011#5 ++ 0b11#2 by decide)
  have hfunct5 := getFunct5_ofWord_of_amo .R (opcodeOf_of_fullOpcodeOf hamo)
  have hlow : (funct7Of w).extractLsb' 0 2 = w.extractLsb' 25 2 := Laws.slice_slice w 25 7 0 2 (by decide)
  exact ⟨_, answeredWith_ofWord_of_fullOpcode .amo hamo, hfunct5.trans (congrArg _ (Laws.funct5Of_eq_slice w)), hlow,
    step_reading_answered s w rfl⟩

/-! ### Meaning and selection -/

/-- A field with a meaning keeps its contract: `imm` has none in format R, and `funct5` none off AMO (spec R91). -/
theorem exists_read_of_meaningful {d : Decoded} {f : Field} (h : d.meaningful f = true) : ∃ v, d.read f = .ok v := by
  cases hread : d.read f with
  | ok v => exact ⟨v, rfl⟩
  | error e =>
    obtain ⟨⟨rfl, hformat⟩ | ⟨rfl, hop⟩, -⟩ := (read_eq_error_iff _ _ _).mp hread
    · simp [Decoded.meaningful, hformat] at h
    · simp [Decoded.meaningful, hop] at h

/-- The fields with a meaning, but for those whose meaning is no matter of the format, are the selected ones (spec R91,
R96). -/
theorem meaningful_iff_mem_diagFields (d : Decoded) {f : Field} (hformat : f ≠ .format) (hfunct5 : f ≠ .funct5) :
    d.meaningful f = true ↔ f ∈ diagFields d.format := by
  cases f with
  | format | funct5 => contradiction
  | opcode | fullOpcode | funct3 | funct7 | rd | rs1 | rs2 | imm =>
    dsimp only [Decoded.meaningful]
    cases d.format <;> decide

/-- Every selected field has a meaning (spec R91, R96). -/
theorem meaningful_of_mem_diagFields {d : Decoded} {f : Field} (h : f ∈ diagFields d.format) :
    d.meaningful f = true := by
  have hnone : .format ∉ diagFields d.format ∧ .funct5 ∉ diagFields d.format := by
    cases d.format <;> decide
  obtain ⟨hformat, hfunct5⟩ := hnone
  exact (meaningful_iff_mem_diagFields d (ne_of_mem_of_not_mem h hformat) (ne_of_mem_of_not_mem h hfunct5)).mpr h

/-- Fields that are all answered are read one after another, each with its getter's value (spec R96). -/
theorem readAll_of_forall_read (d : Decoded) (fs : List Field) (h : ∀ f ∈ fs, ∃ v, d.read f = .ok v) :
    ∃ l, d.readAll fs = .ok l ∧ l.map Sample.field = fs ∧ ∀ p ∈ l, d.read p.field = .ok p.value := by
  induction fs with
  | nil => exact ⟨[], rfl, rfl, by simp⟩
  | cons f fs ih =>
    obtain ⟨v, hv⟩ := h f (by simp)
    obtain ⟨l, hl, hfields, hvalues⟩ := ih fun g hg => h g (List.mem_cons_of_mem f hg)
    exact ⟨⟨f, v⟩ :: l, by simp [Decoded.readAll, hv, hl], by simp [hfields], by simpa [hv] using hvalues⟩

/-- Settles O33: every selected field has a meaning, so it is answered, and reading them all ends in no fault. -/
theorem diagnosticSelectsByFormatAndNeverFaults : Obligations.DiagnosticSelectsByFormatAndNeverFaults := by
  intro d
  obtain ⟨l, hl, hfields, hvalues⟩ := readAll_of_forall_read d (diagFields d.format) fun _ hf =>
    exists_read_of_meaningful (meaningful_of_mem_diagFields hf)
  refine ⟨l, hl, hfields.trans ?_, hvalues⟩
  cases d.format <;> rfl

/-- Settles O34: the columns of R91's table are the disjunctions `meaningful` is written with. -/
theorem meaningfulFieldsAreTheSelectedOnes : Obligations.MeaningfulFieldsAreTheSelectedOnes := by
  refine fun d f => ⟨?funct3, ?funct7, ?rd, ?rs1, ?rs2, ?imm, ?funct5, meaningful_iff_mem_diagFields d,
    exists_read_of_meaningful⟩
  case funct3 | rd | rs1 | rs2 => simp [Decoded.meaningful, or_assoc]
  case funct7 | imm => simp [Decoded.meaningful]
  case funct5 => exact beq_iff_eq

end Sys2Proof.Machine

/-! ## Proofs of the statements on reset and hazards (spec/70_reset_and_hazards.md)

Everything a step that goes on can do is said once (`step_next_cases`): it writes a word and its own answer, or it makes
an allowed read. The invariants are read off those cases. -/

namespace Sys2Proof.Machine

/-! ### What a step that goes on has done -/

/-- A read goes on exactly where its contract allows it (spec R87, R95). -/
theorem exists_readField_eq_next_iff (f : Field) (s : State) :
    (∃ t, readField f s = .next t) ↔ readAllowed s.result f = true := by
  simp only [readField_eq_next_iff]
  cases s.result with
  | error e => simp [readAllowed]
  | ok d => simp [readAllowed_ok_iff]

/-- With no action left a step answers the word on the input, and writes nothing else (spec R112). -/
theorem step_of_idle_eq_next {s : State} (h : s.stimuli = []) :
    step s = .next (s.withResult (decodeRecord s.config.customSlot s.insn)) :=
  (step_of_idle h).trans (settle_eq_next_decodeRecord s.insn s)

/-- A step whose next action presents a word takes it off the queue and answers it. -/
theorem step_of_present_eq_next {s : State} {w : Word} {rest : List Stimulus} (h : s.stimuli = .present w :: rest) :
    step s = .next (((s.withStimuli rest).withInsn w).withResult (decodeRecord s.config.customSlot w)) :=
  (step_of_present h).trans (settle_eq_next_decodeRecord w (s.withStimuli rest))

/-- A step that goes on has answered the word on the input, answered the next word, or made an allowed read. -/
theorem step_next_cases {s t : State} (h : step s = .next t) :
    (s.stimuli = [] ∧ t = s.withResult (decodeRecord s.config.customSlot s.insn)) ∨
    (∃ w rest, s.stimuli = .present w :: rest ∧
      t = ((s.withStimuli rest).withInsn w).withResult (decodeRecord s.config.customSlot w)) ∨
    (∃ f rest v, s.stimuli = .read f :: rest ∧ readAllowed s.result f = true ∧
      t = (s.withStimuli rest).withSampled ⟨f, v⟩) := by
  rcases step_cases s with ⟨hq, -⟩ | ⟨w, rest, hq, -⟩ | ⟨f, rest, hq, hstep⟩
  · exact .inl ⟨hq, Host.Outcome.next.inj (h.symm.trans (step_of_idle_eq_next hq))⟩
  · exact .inr (.inl ⟨w, rest, hq, Host.Outcome.next.inj (h.symm.trans (step_of_present_eq_next hq))⟩)
  · have hread : readField f (s.withStimuli rest) = .next t := hstep.symm.trans h
    obtain ⟨d, v, -, -, ht⟩ := (readField_eq_next_iff _ _ _).mp hread
    exact .inr (.inr ⟨f, rest, v, hq, (exists_readField_eq_next_iff f (s.withStimuli rest)).mp ⟨t, hread⟩, ht⟩)

/-- A step that goes on has taken one action off the queue, if there was one. -/
theorem stimuli_of_step {s t : State} (h : step s = .next t) : t.stimuli = s.stimuli.tail := by
  rcases step_next_cases h with ⟨hq, rfl⟩ | ⟨w, rest, hq, rfl⟩ | ⟨f, rest, v, hq, -, rfl⟩ <;> simp [hq]

/-! ### Words presented one after another -/

theorem feed_nil (s : State) : s.feed [] = s := by
  simp [State.feed, State.withStimuli]

/-- With nothing queued before them, the first of the words fed is answered and the others stay fed. -/
theorem step_feed_cons {s : State} (h : s.stimuli = []) (w : Word) (ws : List Word) :
    step (s.feed (w :: ws)) = .next (((s.withInsn w).withResult (decodeRecord s.config.customSlot w)).feed ws) := by
  have hq : (s.feed (w :: ws)).stimuli = .present w :: ws.map .present := by simp [State.feed, h]
  rw [step_of_present_eq_next hq]
  simp [State.feed, State.withStimuli, State.withInsn, State.withResult, h]

/-! ### The statements -/

/-- Settles O15: a word's answer is written with the word, and a read writes neither. -/
theorem everyStepKeepsTheAnswerSettled : Obligations.EveryStepKeepsTheAnswerSettled := by
  intro s t hs h
  rcases step_next_cases h with ⟨-, rfl⟩ | ⟨w, rest, -, rfl⟩ | ⟨f, rest, v, -, -, rfl⟩
  case inl => exact rfl
  case inr.inl => exact rfl
  case inr.inr => exact hs

/-- Settles O16: none of the writes of a step is to the parameter. -/
theorem noStepChangesTheBuildParameter : Obligations.NoStepChangesTheBuildParameter := by
  intro s t h
  have hconfig : t.config = s.config := by
    rcases step_next_cases h with ⟨-, rfl⟩ | ⟨w, rest, -, rfl⟩ | ⟨f, rest, v, -, -, rfl⟩ <;> rfl
  exact ⟨hconfig, fun op => by rw [hconfig]⟩

/-- Settles O12: the idle step writes the answer, which a settled state holds already. -/
theorem idleBlockHoldsItsAnswer : Obligations.IdleBlockHoldsItsAnswer := by
  intro s hidle
  refine ⟨step_of_idle_eq_next hidle, fun hs => ?_⟩
  rw [step_of_idle_eq_next hidle, ← hs]
  rfl

/-- Settles O11, by induction on the earlier words: each is answered and overwritten by the next. -/
theorem earlierWordsDoNotChangeALaterAnswer : Obligations.EarlierWordsDoNotChangeALaterAnswer := by
  intro s earlier w hq
  induction earlier generalizing s with
  | nil => exact (run_of_next 0 (step_feed_cons hq w [])).trans (congrArg _ (feed_nil _))
  | cons w₀ ws ih => exact (run_of_next _ (step_feed_cons hq w₀ (ws ++ [w]))).trans (ih _ hq)

/-- Settles O14: the word 0 on the input fails check 1, and every other value is the one reset names. -/
theorem resetAnswersTheWordOnItsInput : Obligations.ResetAnswersTheWordOnItsInput :=
  ⟨rfl, rfl, rfl, rfl, rfl, rfl, rfl, rfl⟩

end Sys2Proof.Machine

/-! ## Proofs of the statements on exceptions (spec/60_exceptions.md)

Of the error: a word is answered with it exactly where it is not `legal`, and `legal` fails exactly where a cause
applies. Of the contracts: a step that goes on from a settled state passes a read only where it is allowed, so whether
the queued reads honour their contracts is the same before it and after it (`honoursContracts_of_step`), and both runs
follow by induction. -/

namespace Sys2Proof.Machine

/-! ### The error and its causes -/

/-- `illegal` is 0 exactly beside a record (spec R25). -/
theorem ports_illegal_eq_zero_iff (s : State) : s.ports.illegal = 0#1 ↔ ∃ d, s.result = .ok d := by
  cases h : s.result with
  | error e => simp [ports_of_error h, Ports.ofIllegal]
  | ok d => simp [ports_of_ok h, Ports.ofRecord]

/-- `illegal` is 1 exactly where there is no record (spec R25). -/
theorem ports_illegal_eq_one_iff (s : State) : s.ports.illegal = 1#1 ↔ ¬∃ d, s.result = .ok d := by
  have hbit : ∀ b : BitVec 1, b = 1#1 ↔ ¬b = 0#1 := by decide
  rw [hbit, ports_illegal_eq_zero_iff]

/-- A word is answered with the error exactly when it is illegal (spec R98). -/
theorem step_presenting_eq_error_iff_illegal (s : State) (w : Word) :
    step (s.presenting w) = .next ((s.withInsn w).withResult (.error ⟨w⟩)) ↔ legal s.config.customSlot w = false := by
  rw [step_presenting_eq_error_iff, exists_answeredWith_iff, Bool.not_eq_true]

theorem mem_illegalCauses_iff (slot : CustomSlot) (w : Word) (c : IllegalCause) :
    c ∈ illegalCauses slot w ↔ c.applies slot w = true := by
  cases c <;> simp [illegalCauses]

/-- A word is illegal exactly where a cause applies (spec R55, R99): a word that passes the marker and opcode checks is
neither of the two that check 1 names. -/
theorem illegalCauses_ne_nil_iff (slot : CustomSlot) (w : Word) :
    illegalCauses slot w ≠ [] ↔ legal slot w = false := by
  rw [← Bool.not_eq_true, not_iff_not, legal_eq_true_iff, List.eq_nil_iff_forall_not_mem]
  simp only [mem_illegalCauses_iff]
  constructor
  · intro hnone
    have hm := hnone .widthMarker
    have hop := hnone .unrecognizedOpcode
    simp only [IllegalCause.applies, bne_iff_ne, not_not] at hm
    simp only [IllegalCause.applies, Option.isNone_iff_eq_none] at hop
    exact ⟨hm, Option.ne_none_iff_exists'.mp hop⟩
  · rintro ⟨hm, c, hc⟩ cause
    cases cause with
    | allZero => simp [IllegalCause.applies, Laws.ne_allZero_of_widthMarker hm]
    | allOnes => simp [IllegalCause.applies, Laws.ne_allOnes_of_classOf hc]
    | widthMarker => simp [IllegalCause.applies, hm]
    | unrecognizedOpcode => simp [IllegalCause.applies, hc]

/-- Settles O2: the error answers an illegal word, and `illegal` is 0 exactly beside a record, which a legal word has. -/
theorem illegalWordIsAnsweredWithTheErrorAlone : Obligations.IllegalWordIsAnsweredWithTheErrorAlone := by
  refine fun s w => ⟨(step_presenting_eq_error_iff_illegal s w).mpr, fun t ht => ⟨?_, ports_illegal_eq_zero_iff t⟩⟩
  have hresult : t.result = decodeRecord s.config.customSlot w :=
    congrArg State.result (Host.Outcome.next.inj (ht.symm.trans (step_presenting s w)))
  simp only [ports_illegal_eq_one_iff, hresult, ← answeredWith_iff, exists_answeredWith_iff, Bool.not_eq_true]

/-- Settles O7: each cause is its condition, some cause applies exactly to the illegal words, and those are answered with
the error. -/
theorem everyCauseGivesTheSameError : Obligations.EveryCauseGivesTheSameError := by
  intro s w
  simp only [mem_illegalCauses_iff]
  refine ⟨beq_iff_eq, beq_iff_eq, bne_iff_ne, ?opcode, ?same, ?allZero, ?allOnes⟩
  case opcode => exact Option.isNone_iff_eq_none.trans Option.map_eq_none_iff.symm
  case same => rw [illegalCauses_ne_nil_iff, step_presenting_eq_error_iff_illegal]
  case allZero =>
    rintro rfl
    cases s.config.customSlot <;> decide
  case allOnes =>
    rintro rfl
    cases s.config.customSlot <;> decide

/-! ### Honoured and broken contracts -/

/-- From a settled state whose queued reads honour their contracts the step goes on: a word is always answered, and the
next read is allowed on the record. -/
theorem exists_step_of_honoursContracts {s : State} (hs : s.Settled)
    (hc : honoursContracts s.config.customSlot s.insn s.stimuli = true) : ∃ t, step s = .next t := by
  match hq : s.stimuli with
  | [] => exact ⟨_, step_of_idle_eq_next hq⟩
  | .present w :: rest => exact ⟨_, step_of_present_eq_next hq⟩
  | .read f :: rest =>
    rw [hq, honoursContracts, ← hs, Bool.and_eq_true] at hc
    obtain ⟨hallowed, -⟩ := hc
    rw [step_of_read hq]
    exact (exists_readField_eq_next_iff f (s.withStimuli rest)).mpr hallowed

/-- A step that goes on from a settled state leaves a queue that honours its contracts exactly if the queue before did:
the word presented is the one the rest is judged by, and the read made was allowed. -/
theorem honoursContracts_of_step {s t : State} (hs : s.Settled) (h : step s = .next t) :
    honoursContracts t.config.customSlot t.insn t.stimuli = honoursContracts s.config.customSlot s.insn s.stimuli := by
  rcases step_next_cases h with ⟨-, rfl⟩ | ⟨w, rest, hq, rfl⟩ | ⟨f, rest, v, hq, hallowed, rfl⟩
  · rfl
  · rw [hq]
    rfl
  · rw [hq, honoursContracts, ← hs, hallowed, Bool.true_and]
    rfl

/-- A run of one step more ends in a state exactly if its first step goes on and the rest of the run ends there. -/
theorem run_succ_eq_next_iff (n : Nat) (s u : State) :
    run (n + 1) s = .next u ↔ ∃ t, step s = .next t ∧ run n t = .next u := by
  cases h : step s with
  | next t => simp [run_of_next n h]
  | fault e => simp [run_of_fault n h]
  | refused r => simp [run_of_refused n h]

/-- Settles O53: the step goes on, and what it leaves is settled and judged as before. -/
theorem honouredContractsAreKeptByEveryStep : Obligations.HonouredContractsAreKeptByEveryStep := by
  intro s hs hc
  obtain ⟨t, ht⟩ := exists_step_of_honoursContracts hs hc
  exact ⟨t, ht, everyStepKeepsTheAnswerSettled s t hs ht, (honoursContracts_of_step hs ht).trans hc⟩

/-- Settles O54, by induction on the number of steps. -/
theorem honouredContractsNeverStopARun : Obligations.HonouredContractsNeverStopARun := by
  intro s hs hc n
  induction n generalizing s with
  | zero => exact ⟨s, run_zero s, hs⟩
  | succ n ih =>
    obtain ⟨t, ht, hts, htc⟩ := honouredContractsAreKeptByEveryStep s hs hc
    rw [run_of_next n ht]
    exact ih t hts htc

/-- Settles O55, by induction on the number of queued actions: while steps go on the broken read stays queued, and it
cannot be there once the queue is empty. -/
theorem brokenContractStopsTheRun : Obligations.BrokenContractStopsTheRun := by
  rintro s hs hc ⟨u, hu⟩
  induction hn : s.stimuli.length generalizing s with
  | zero =>
    rw [List.length_eq_zero_iff.mp hn] at hc
    cases hc
  | succ n ih =>
    rw [hn, run_succ_eq_next_iff] at hu
    obtain ⟨t, ht, htu⟩ := hu
    have hlen : t.stimuli.length = n := by rw [stimuli_of_step ht, List.length_tail, hn, Nat.add_sub_cancel]
    exact ih t (everyStepKeepsTheAnswerSettled s t hs ht) ((honoursContracts_of_step hs ht).trans hc)
      (by rw [hlen, htu]) hlen

end Sys2Proof.Machine

/-! ## Proof of the statement on the spec's example words (spec/95_test_vectors.md) -/

namespace Sys2Proof.Machine

/-- Settles O37: a fixed finite table, evaluated. -/
theorem specsExampleWordsDecode : Obligations.SpecsExampleWordsDecode := by
  unfold Obligations.SpecsExampleWordsDecode
  decide

end Sys2Proof.Machine
